-- ==== Sys2Proof/Word.lean ====
section
/-! DEFINITION. The register, operand and word widths of TXSCHED (00_scope.md R6, 10_state.md R10, 30_encoding.md R60):
TIME_W = 32, RSSI_W = 8, BITPOS_W = 10, CH_W = 4, SIZE_W = 16; event words of 40 bits with a 32-bit argument; chip
command fields of one byte (R73). -/

namespace Sys2Proof

/-- One byte: a field of a chip command frame (R73), an event operation code (R60). -/
abbrev Byte := BitVec 8

/-- One event word `W[39:0]` (R60). -/
abbrev EventWord := BitVec 40

/-- The argument `W[31:0]` of an event word (R60); for DATA it is 32 packet bits (R65). -/
abbrev Arg := BitVec 32

/-- UTC, LASTTX, PKT_TS: whole seconds, TIME_W = 32 (R10, R12). -/
abbrev Time := BitVec 32

/-- Measured signal strength and noise floor, RSSI_W = 8 (R25). -/
abbrev Rssi := BitVec 8

/-- Bit position inside the TDMA slot, BITPOS_W = 10 (R16). -/
abbrev BitPos := BitVec 10

/-- A channel index, CH_W = 4 (R15). -/
abbrev ChanIx := BitVec 4

/-- PKT_SIZE and PKT_CUR, SIZE_W = 16 (R10). -/
abbrev PktLen := BitVec 16

/-- The slot number that SLOT passes on (R63). -/
abbrev SlotNo := BitVec 16

end Sys2Proof
end

