-- ==== Sys2Proof/Config.lean ====
section
/-! DEFINITION. The static configuration `cfg` of 00_scope.md R6 and R7, as plain data, and the values the spec leaves open
as constants with no body.

The spec's step takes `cfg` as an argument and says a claim may quantify over it (R4, R6). The host's step has the state as
its only argument, so `cfg` rides in State (log entry 3): no instruction writes it, and a statement about every state is a
statement about every configuration. -/

namespace Sys2Proof

/-- FILTER_SHAPING: whether CONFIGURE loads the 9-byte TX filter table (R6, R151). -/
inductive FilterShaping where
  | off
  | bt04
  deriving DecidableEq, Repr, Inhabited

/-- One entry of CHANNELS (R42). Only `ordinal` is used by the block, as the channel byte of START_TX; the widths of `itu`
and `frequency` are not in the source (log entry 15). -/
structure Channel where
  ordinal   : Byte
  itu       : Nat
  frequency : Nat
  deriving DecidableEq, Repr, Inhabited

/-- One entry of POWER_TABLE: three bytes (R43). -/
structure PowerEntry where
  mode     : Byte
  level    : Byte
  biasDuty : Byte
  deriving DecidableEq, Repr, Inhabited

/-- The chip constants of R6, all OPEN in the spec: operation bytes, property groups, offsets and values, pin function
codes, condition codes, repeat count. -/
structure ChipConsts where
  opcSetProperty   : Byte
  opcGpioPinCfg    : Byte
  opcStartTx       : Byte
  opcGetChipStatus : Byte
  modGroup         : Byte
  modStart         : Byte
  modTypeValue     : Byte
  filtGroup        : Byte
  filtStart        : Byte
  bt04Coeff        : Vector Byte 9
  paGroup          : Byte
  paStart          : Byte
  gpiofTxDataIn    : Byte
  gpiofRxData      : Byte
  gpiofBitclkTx    : Byte
  gpiofBitclkRx    : Byte
  gpiofRxtxState   : Byte
  gpiofSyncDetect  : Byte
  gpio0Tx          : Byte
  sdoTx            : Byte
  gencfgTx         : Byte
  gpio0Rx          : Byte
  sdoRx            : Byte
  gencfgRx         : Byte
  txCondNormal     : Byte
  txCondCw         : Byte
  txRepeat         : Byte
  deriving DecidableEq, Repr, Inhabited

/-- The static configuration (R6). NCH and NPWR are the lengths of the two tables, so that each has one home. -/
structure Cfg where
  /-- TEST_MODE: true is the bench-test policy (R104). -/
  testMode      : Bool
  /-- FILTER_SHAPING. -/
  filterShaping : FilterShaping
  /-- CCA_BIT, 0 <= CCA_BIT < 2^BITPOS_W. -/
  ccaBit        : BitPos
  /-- MAX_AGE, seconds, 0 <= MAX_AGE < 2^TIME_W. -/
  maxAge        : Time
  /-- MIN_TX_INTERVAL, seconds, 0 <= MIN_TX_INTERVAL < 2^TIME_W. -/
  minTxInterval : Time
  /-- TX_POWER_LEVEL, an index into POWER_TABLE. -/
  txPowerLevel  : Nat
  /-- POWER_TABLE[0..NPWR-1]. -/
  powerTable    : List PowerEntry
  /-- CHANNELS[0..NCH-1]. -/
  channels      : List Channel
  /-- PKT_MAX_BITS, the capacity of the packet bit store. -/
  pktMaxBits    : Nat
  /-- STATUS_W, the width of each field of the chip status reply. -/
  statusW       : Nat
  /-- BLINK_TX_TAG. -/
  blinkTxTag    : Nat
  /-- The chip constants. -/
  chip          : ChipConsts
  deriving DecidableEq, Repr, Inhabited

/-- NCH (R6). -/
abbrev Cfg.nch (c : Cfg) : Nat := c.channels.length

/-- NPWR (R6). -/
abbrev Cfg.npwr (c : Cfg) : Nat := c.powerTable.length

/-- CCA_MARGIN = 12, fixed by the source (R6, R110). -/
def ccaMargin : Nat := 12

/-- The chip constants of the modelled board. The source names them and gives no values (R6, U11): no body. -/
opaque Config.chipConsts : ChipConsts

/-- The power table entries of the modelled board, symbolic in the spec's CFG0 (R6, U12): no body. -/
opaque Config.powerEntry : Nat → PowerEntry

/-- BLINK_TX_TAG of the modelled board (R6, U12): no body. -/
opaque Config.blinkTxTag : Nat

/-- The bits of a chip status reply other than bit 3 of `current` (R23, U10: any value, never read). The first argument
numbers the reply, the second the bit. No body (log entry 9). -/
opaque Config.freeStatusBit : Nat → Nat → Bool

end Sys2Proof
end

