-- ==== Sys2Proof/Syntax.lean ====
section
/-! DEFINITION. The instructions: one constructor per row of spec/opcode_table.json. The nine event words of 30_encoding.md
R61 with the operands of R70, and the four chip commands of R73 with the fields of the source's section 6 table. -/

namespace Sys2Proof

/-- The seven bytes of GPIO_PIN_CFG: the function codes of six chip pins and the general-config byte (R75, R147). -/
structure PinMap where
  gpio0  : Byte
  gpio1  : Byte
  gpio2  : Byte
  gpio3  : Byte
  nirq   : Byte
  sdo    : Byte
  gencfg : Byte
  deriving DecidableEq, Repr, Inhabited

/-- The instructions of the opcode table. The event operands `pos`, `rssi`, `nf` and `fault` are the collaborators' answers,
which ride in the event word (R25, R62). -/
inductive Instr where
  /-- TICK: the bit-clock notification (R62, R100). -/
  | tick (pos : BitPos) (rssi nf : Rssi) (fault : Bool)
  /-- SLOT: the slot-boundary notification (R63, R130). -/
  | slot (slot : SlotNo)
  /-- UTC: the clock notification (R64, R90). -/
  | utc (t : Time)
  /-- ASSIGN: the header word of a packet hand-over; ceil(size/32) DATA words follow (R65, R92). -/
  | assign (ch : ChanIx) (size : PktLen)
  /-- STARTRX: startReceiving called from outside (R66, R132). -/
  | startrx (ch : ChanIx)
  /-- CONFIGURE: mode configure (R67, R150). -/
  | configure
  /-- SETPWR: setTXPower standalone (R68, R153). -/
  | setpwr (level : Byte)
  /-- CWTEST: the continuous-carrier test (R69, R156). -/
  | cwtest (ch : ChanIx) (fault : Bool)
  /-- DATA: a continuation word of ASSIGN, 32 packet bits (R65). -/
  | data (bits : Arg)
  /-- SET_PROPERTY: chip command (R74, R141). -/
  | setProperty (group count start : Byte) (bytes : List Byte)
  /-- GPIO_PIN_CFG: chip command (R75, R147). -/
  | gpioPinCfg (pins : PinMap)
  /-- START_TX: chip command (R76, R142). -/
  | startTx (channel condition length delay reps : Byte)
  /-- GET_CHIP_STATUS: chip command (R77, R143). -/
  | getChipStatus
  deriving DecidableEq, Repr

/-- How an instruction stands on a wire: an event is a 40-bit event word (R60), a chip command is a frame of bytes (R73). -/
inductive Wire where
  | word (w : EventWord)
  | frame (bytes : List Byte)
  deriving DecidableEq, Repr

end Sys2Proof
end

