-- ==== Sys2Proof/WellFormed.lean ====
section
/-! DEFINITION. The checks on terms: an instruction is well-formed when its fields fit together, a configuration when it
lies inside the ranges of 00_scope.md R6. Everything else about an instruction is fixed by its types. -/

namespace Sys2Proof

/-- SET_PROPERTY carries exactly `count` data bytes (R74); every other constructor is well-formed by its types. -/
def Instr.wf : Instr → Bool
  | .setProperty _ count _ bytes => bytes.length == count.toNat
  | .tick _ _ _ _ => true
  | .slot _ => true
  | .utc _ => true
  | .assign _ _ => true
  | .startrx _ => true
  | .configure => true
  | .setpwr _ => true
  | .cwtest _ _ => true
  | .data _ => true
  | .gpioPinCfg _ => true
  | .startTx _ _ _ _ _ => true
  | .getChipStatus => true

/-- The ranges R6 gives the parameters: 1 <= NCH <= 16, TX_POWER_LEVEL < NPWR, PKT_MAX_BITS <= 65535, STATUS_W >= 4. -/
def Cfg.wf (c : Cfg) : Bool :=
  decide (1 ≤ c.nch) && decide (c.nch ≤ 16) && decide (c.txPowerLevel < c.npwr) && decide (c.pktMaxBits ≤ 65535)
    && decide (4 ≤ c.statusW)

/-- The four command operation bytes are four different bytes. A frame can be told from another only then (R73); the spec
does not say so in words (log entry 16, DEDUCED), and only the statements about decoding a frame ask for it. -/
def ChipConsts.opcodesDistinct (k : ChipConsts) : Bool :=
  decide (k.opcSetProperty ≠ k.opcGpioPinCfg) && decide (k.opcSetProperty ≠ k.opcStartTx)
    && decide (k.opcSetProperty ≠ k.opcGetChipStatus) && decide (k.opcGpioPinCfg ≠ k.opcStartTx)
    && decide (k.opcGpioPinCfg ≠ k.opcGetChipStatus) && decide (k.opcStartTx ≠ k.opcGetChipStatus)

end Sys2Proof
end

