-- ==== Sys2Proof/Decode.lean ====
section
/-! DEFINITION. The decoder and the encoder: event words (30_encoding.md R60 to R72) and chip command frames (R73 to R77).
Decoding is total and rejects by name. -/

namespace Sys2Proof

/-- Why a wire item is no instruction (R72, R73). -/
inductive DecodeError where
  /-- The operation code is none of the nine of R71. -/
  | reservedOp (op : Byte)
  /-- A field that the format marks zero is not zero. -/
  | nonzeroField
  /-- The first byte of a frame is none of the four command operation bytes, or there is no byte. -/
  | unknownCommand
  /-- A frame does not have the length of its command. -/
  | frameLength
  deriving DecidableEq, Repr

/-- `op = W[39:32]` (R60). -/
def opOf (w : EventWord) : Byte := w.extractLsb' 32 8

/-- `arg = W[31:0]` (R60). -/
def argOf (w : EventWord) : Arg := w.extractLsb' 0 32

/-- A field of `len` bits from bit `lo` up is all zero. -/
def zeroField (w : EventWord) (lo len : Nat) : Bool := w.extractLsb' lo len == 0#len

/-- The event whose word is `w`: the operation code alone selects it (R71), the fields are those of R62 to R69, and a
non-zero bit in a field marked zero makes the word reserved (R72). -/
def decodeWord (w : EventWord) : Except DecodeError Instr :=
  if opOf w = 0x01#8 then
    if zeroField w 26 5 then
      .ok (.tick (w.extractLsb' 16 10) (w.extractLsb' 8 8) (w.extractLsb' 0 8) (w.getLsbD 31))
    else .error .nonzeroField
  else if opOf w = 0x02#8 then
    if zeroField w 16 16 then .ok (.slot (w.extractLsb' 0 16)) else .error .nonzeroField
  else if opOf w = 0x03#8 then .ok (.utc (argOf w))
  else if opOf w = 0x04#8 then
    if zeroField w 20 12 then .ok (.assign (w.extractLsb' 16 4) (w.extractLsb' 0 16)) else .error .nonzeroField
  else if opOf w = 0x05#8 then
    if zeroField w 4 28 then .ok (.startrx (w.extractLsb' 0 4)) else .error .nonzeroField
  else if opOf w = 0x06#8 then
    if zeroField w 0 32 then .ok .configure else .error .nonzeroField
  else if opOf w = 0x07#8 then
    if zeroField w 8 24 then .ok (.setpwr (w.extractLsb' 0 8)) else .error .nonzeroField
  else if opOf w = 0x08#8 then
    if zeroField w 4 27 then .ok (.cwtest (w.extractLsb' 0 4) (w.getLsbD 31)) else .error .nonzeroField
  else if opOf w = 0x80#8 then .ok (.data (argOf w))
  else .error (.reservedOp (opOf w))

/-- The chip command whose frame is `bytes`: the operation byte, then the fields in the order of the section 6 table, one
byte each (R73 to R77). -/
def decodeFrame (k : ChipConsts) (bytes : List Byte) : Except DecodeError Instr :=
  match bytes with
  | [] => .error .unknownCommand
  | op :: fields =>
    if op = k.opcSetProperty then
      match fields with
      | group :: count :: start :: rest =>
        if rest.length = count.toNat then .ok (.setProperty group count start rest) else .error .frameLength
      | _ => .error .frameLength
    else if op = k.opcGpioPinCfg then
      match fields with
      | [g0, g1, g2, g3, nirq, sdo, gencfg] => .ok (.gpioPinCfg ⟨g0, g1, g2, g3, nirq, sdo, gencfg⟩)
      | _ => .error .frameLength
    else if op = k.opcStartTx then
      match fields with
      | [channel, condition, length, delay, reps] => .ok (.startTx channel condition length delay reps)
      | _ => .error .frameLength
    else if op = k.opcGetChipStatus then
      match fields with
      | [] => .ok .getChipStatus
      | _ => .error .frameLength
    else .error .unknownCommand

/-- The decoder. -/
def decode (k : ChipConsts) : Wire → Except DecodeError Instr
  | .word w => decodeWord w
  | .frame bytes => decodeFrame k bytes

/-- An event word from its operation code, `W[39:32]`, and its argument, `W[31:0]` (R60). -/
def eventWord (op : Byte) (arg : Arg) : EventWord := op.setWidth 40 <<< 32 ||| arg.setWidth 40

/-- A field of an argument with its bit 0 at bit `lo` of the argument, the other bits zero (R60, R61). -/
def place {n : Nat} (lo : Nat) (x : BitVec n) : Arg := x.setWidth 32 <<< lo

/-- The bytes of a GPIO_PIN_CFG frame after the operation byte, in the order of R75. -/
def PinMap.bytes (p : PinMap) : List Byte := [p.gpio0, p.gpio1, p.gpio2, p.gpio3, p.nirq, p.sdo, p.gencfg]

/-- The wire form of an instruction, from the layouts of R61 to R69 and R74 to R77. -/
def encode (k : ChipConsts) : Instr → Wire
  | .tick pos rssi nf fault =>
    .word (eventWord 0x01#8 (place 31 (BitVec.ofBool fault) ||| place 16 pos ||| place 8 rssi ||| place 0 nf))
  | .slot slot => .word (eventWord 0x02#8 (place 0 slot))
  | .utc t => .word (eventWord 0x03#8 t)
  | .assign ch size => .word (eventWord 0x04#8 (place 16 ch ||| place 0 size))
  | .startrx ch => .word (eventWord 0x05#8 (place 0 ch))
  | .configure => .word (eventWord 0x06#8 0#32)
  | .setpwr level => .word (eventWord 0x07#8 (place 0 level))
  | .cwtest ch fault => .word (eventWord 0x08#8 (place 31 (BitVec.ofBool fault) ||| place 0 ch))
  | .data bits => .word (eventWord 0x80#8 bits)
  | .setProperty group count start bytes => .frame ([k.opcSetProperty, group, count, start] ++ bytes)
  | .gpioPinCfg pins => .frame (k.opcGpioPinCfg :: pins.bytes)
  | .startTx channel condition length delay reps => .frame [k.opcStartTx, channel, condition, length, delay, reps]
  | .getChipStatus => .frame [k.opcGetChipStatus]

/-- The `n` bytes of a number, its low byte first. -/
def bytesOfNat (n w : Nat) : List Byte := (List.range n).map fun i => BitVec.ofNat 8 (w >>> (8 * i))

/-- The wire form of an instruction whose bits are `w`, as the opcode table numbers them. A 40-bit item is an event word
when it decodes as one; otherwise it is a SET_PROPERTY frame with the one data byte the table's row shows, the further data
bytes its count announces being zero. Any other width is a frame, its first byte in bits 7..0 (log entry 16). -/
def wireOfTable (nbits w : Nat) : Wire :=
  if nbits = 40 then
    match decodeWord (BitVec.ofNat 40 w) with
    | .ok _ => .word (BitVec.ofNat 40 w)
    | .error _ => .frame (bytesOfNat (4 + (w >>> 16) % 256) (w % 2 ^ 40))
  else .frame (bytesOfNat (nbits / 8) w)

/-- The instruction the decoder reads from a table word; command frames are read with the modelled board's operation
bytes. -/
def decodeTableWord (nbits w : Nat) : Option Instr := (decode Config.chipConsts (wireOfTable nbits w)).toOption

end Sys2Proof
end

