-- ==== Sys2Proof/Machine/Board.lean ====
section
/-! DEFINITION. The configuration that State.reset carries: the spec's own test configuration CFG0 (95_test_vectors.md
section 0), with a constant of no body wherever CFG0 is symbolic (log entry 3, DESIGN CHOICE). No statement rests on it:
`State.resetWith` and every statement take any configuration. -/

namespace Sys2Proof.Machine

/-- CFG0. Index 0 of CHANNELS is the source's own entry (R42); index 1, CCA_BIT and PKT_MAX_BITS are marked (test) there,
MAX_AGE and MIN_TX_INTERVAL are the numbers of the source's examples. STATUS_W is symbolic in CFG0 and is 32 here, after
the source's "3×32-bit-ish fields". -/
def board : Cfg where
  testMode      := false
  filterShaping := .off
  ccaBit        := 100#10
  maxAge        := 120#32
  minTxInterval := 60#32
  txPowerLevel  := 0
  powerTable    := [Config.powerEntry 0, Config.powerEntry 1, Config.powerEntry 2]
  channels      := [⟨10#8, 87, 161975000⟩, ⟨11#8, 88, 162025000⟩]
  pktMaxBits    := 256
  statusW       := 32
  blinkTxTag    := Config.blinkTxTag
  chip          := Config.chipConsts

end Sys2Proof.Machine
end

