-- ==== Sys2Proof/Machine/State.lean ====
section
/-! DEFINITION. The state of the machine as plain data: the fourteen registers and the bit array of 10_state.md R10, the
static configuration, what the chip commands leave in the RF chip (R141, R147), and the model's own fields (the event port
and the record of output actions). Also the actions, the reasons a step stops, and reset. -/

namespace Sys2Proof.Machine

/-- MODE: two values and no third (R11). -/
inductive Mode where
  | receiving
  | transmitting
  deriving DecidableEq, Repr, Inhabited

/-- BITPIN_DIR: the direction of the microcontroller-side bit pin (R19). -/
inductive PinDir where
  | input
  | output
  deriving DecidableEq, Repr, Inhabited

/-- FAULT: the record of a fatal assertion (R21). -/
inductive FaultCode where
  | none
  | doubleAssign
  deriving DecidableEq, Repr, Inhabited

/-- The log lines (R177). -/
inductive LogLine where
  | staleDiscard (age : Int) (ch : ChanIx)
  | txStartFailed (ch : ChanIx)
  | txDone (bits : PktLen) (ch : ChanIx)
  | cwStatus (ch : ChanIx) (fault : Bool)
  | assertDoubleAssign
  deriving DecidableEq, Repr

/-- The chip commands as abstract records of their fields (R24, R73). -/
inductive Cmd where
  | setProperty (group count start : Byte) (bytes : List Byte)
  | gpioPinCfg (pins : PinMap)
  | startTx (channel condition length delay reps : Byte)
  | getChipStatus
  deriving DecidableEq, Repr

/-- The output actions (R24). -/
inductive Action where
  | rxOnBitClock
  | rxTimeSlotStarted (slot : SlotNo)
  | rxStartReceiving (ch : ChanIx)
  | rxConfigure
  | pinMode (d : PinDir)
  | pinLevel (b : Bool)
  | bias (b : Bool)
  | cmd (c : Cmd)
  | poolFree
  | blink (tag : Nat)
  | log (l : LogLine)
  deriving DecidableEq, Repr

/-- The chip property space: (address, byte) pairs, addresses strictly rising; an unlisted address reads as no value
(20_memory.md R40, R44). -/
abbrev Memory := List Host.Cell

/-- What the chip commands leave in the RF chip. The block never reads it (R23, R44). What the receive path writes into the
chip in its own delegations is not in it (R133, R150, log entry 6). -/
structure Chip where
  /-- The one-byte properties written so far, keyed by `propKey group index`. -/
  props : Memory
  /-- The functions of the six pins and the general-config byte (R147). -/
  pins  : PinMap
  deriving DecidableEq, Repr

/-- An ASSIGN sequence whose DATA words are still arriving (R65): the header's operands and the words received, oldest
first. -/
structure Arriving where
  ch   : ChanIx
  size : PktLen
  got  : List Arg
  deriving DecidableEq, Repr

/-- The draws of one reset: a value for every register that reset leaves unspecified (R34). -/
structure ResetDraw where
  chan    : ChanIx
  bitPos  : BitPos
  pktChan : ChanIx
  pktTs   : Time
  pktSize : PktLen
  pktCur  : PktLen
  pktMem  : List Bool
  txLine  : Bool
  deriving DecidableEq, Repr

/-- One item at the machine's inputs (R26): an item of the event port or of the chip command transport, or the reset
input `rst` with the values reset draws. -/
inductive Input where
  | wire (x : Wire)
  | rst (d : ResetDraw)
  deriving DecidableEq, Repr

/-- The state. -/
structure State where
  /-- MODE (R11). -/
  mode      : Mode
  /-- UTC, seconds; 0 means not yet known (R12). -/
  utc       : Time
  /-- LASTTX, seconds (R13). -/
  lastTx    : Time
  /-- CHAN, the tuned channel index (R15). -/
  chan      : ChanIx
  /-- BITPOS (R16). -/
  bitPos    : BitPos
  /-- PKT_VALID (R17). -/
  pktValid  : Bool
  /-- PKT_CHAN (R17). -/
  pktChan   : ChanIx
  /-- PKT_TS (R17). -/
  pktTs     : Time
  /-- PKT_SIZE (R17). -/
  pktSize   : PktLen
  /-- PKT_CUR (R14). -/
  pktCur    : PktLen
  /-- PKTMEM, PKT_MAX_BITS one-bit cells, index 0 first (R18). -/
  pktMem    : List Bool
  /-- TXLINE, the level last driven (R19). -/
  txLine    : Bool
  /-- BITPIN_DIR (R19). -/
  bitPinDir : PinDir
  /-- PA_BIAS (R20). -/
  paBias    : Bool
  /-- FAULT (R21). -/
  fault     : FaultCode
  /-- The static configuration (R6, R7): no instruction writes it. -/
  cfg       : Cfg
  /-- What the chip commands leave in the RF chip (R141, R147). -/
  chip      : Chip
  /-- The model's own: an ASSIGN sequence in progress (R65, log entry 2). -/
  arriving  : Option Arriving
  /-- The model's own: the input items delivered and not yet taken, oldest first (R5, log entry 1). -/
  port      : List Input
  /-- The model's own: every output action emitted, oldest first (R24, log entry 5). -/
  trace     : List Action
  deriving DecidableEq, Repr

/-- Why the machine stops with a fault. -/
inductive Fault where
  /-- The block is stopped: raised by every instruction and every undecodable item while FAULT is not NONE (R179). Safe:
  the spec gives no step there. -/
  | stopped
  deriving DecidableEq, Repr

/-- Why an item has no step. Every constructor is one of the spec's refusals (R178) and is safe: it removes runs the spec
gives no meaning. -/
inductive Refusal where
  /-- exec's arm of an instruction that has no meaning yet; no arm answers it. Safe. -/
  | notModelled (mnemonic : String)
  /-- A reserved or malformed encoding (R178 (a), R72). Raised by fetching. Safe. -/
  | reservedEncoding (e : DecodeError)
  /-- A DATA word outside an ASSIGN sequence (R178 (a), R72). Raised by DATA. Safe. -/
  | dataOutsideAssign
  /-- An event other than DATA inside an ASSIGN sequence (R178 (a), R65, R72). Raised by the other eight events. Safe. -/
  | insideAssign
  /-- An ASSIGN sequence with too few DATA words: its input ends, or reset comes, before the last one (R178 (a), R72, R65).
  Raised by fetching. Safe. -/
  | tooFewDataWords
  /-- A non-zero padding bit in the last DATA word (R178 (a), R65, R72). Raised by DATA. Safe. -/
  | paddingNotZero
  /-- A channel index outside CHANNELS (R178 (b), R48). Raised by ASSIGN, STARTRX, CWTEST, and by a transmit start of a
  packet whose channel is outside the table, which no reachable state holds. Safe. -/
  | channelOutOfRange
  /-- `size > PKT_MAX_BITS` (R178 (b)). Raised by ASSIGN. Safe. -/
  | sizeOutOfRange
  /-- A power level outside POWER_TABLE (R178 (b), R48). Raised by SETPWR, and by a transmit start or CWTEST under a
  configuration outside R6. Safe. -/
  | levelOutOfRange
  /-- STARTRX, CONFIGURE, SETPWR or CWTEST while MODE = TRANSMITTING (R178 (c)). Safe. -/
  | whileTransmitting
  /-- CWTEST while PKT_VALID = 1 (R178 (d)). Safe. -/
  | packetHeld
  /-- PKT_CUR outside PKTMEM (R48), which no reachable state shows to a shifting TICK. Safe. -/
  | packetIndexOutOfRange
  deriving DecidableEq, Repr

/-- The state right after a reset under configuration `c` with the draws `d`: the values of R34, and for every register
R34 leaves unspecified the draw, taken below NCH for CHAN and over PKT_MAX_BITS cells for PKTMEM. The chip, which reset does
not touch (R201), has no property written and the given pin functions. -/
def State.resetWith (c : Cfg) (d : ResetDraw) (pins : PinMap) : State where
  mode      := .receiving
  utc       := 0#32
  lastTx    := 0#32
  chan      := if d.chan.toNat < c.nch then d.chan else 0#4
  bitPos    := d.bitPos
  pktValid  := false
  pktChan   := d.pktChan
  pktTs     := d.pktTs
  pktSize   := d.pktSize
  pktCur    := d.pktCur
  pktMem    := (List.range c.pktMaxBits).map fun i => d.pktMem.getD i false
  txLine    := d.txLine
  bitPinDir := .input
  paBias    := false
  fault     := .none
  cfg       := c
  chip      := ⟨[], pins⟩
  arriving  := none
  port      := []
  trace     := []

/-- The draws of State.reset: zero for each register the spec leaves unspecified (log entry 4, DESIGN CHOICE). -/
def zeroDraw : ResetDraw := ⟨0#4, 0#10, 0#4, 0#32, 0#16, 0#16, [], false⟩

/-- The pin functions of State.reset: zero (log entry 6, DESIGN CHOICE). -/
def zeroPins : PinMap := ⟨0#8, 0#8, 0#8, 0#8, 0#8, 0#8, 0#8⟩

/-- The machine right after reset (R200). -/
def State.reset : State := State.resetWith board zeroDraw zeroPins

end Sys2Proof.Machine
end

