-- ==== Sys2Proof/Machine/Memory.lean ====
section
/-! DEFINITION. The chip property space (20_memory.md R40, R44): reading, writing, the canonical form. -/

namespace Sys2Proof.Machine

/-- The canonical form: addresses strictly rising. An unlisted address reads as no value, so no entry can equal what an
unlisted address reads as. -/
abbrev Memory.wf (m : Memory) : Prop := m.Pairwise fun x y => x.1 < y.1

/-- The byte at an address; none where nothing has been written. -/
def Memory.read : Memory → Nat → Option Byte
  | [], _ => none
  | (a, b) :: rest, k => if a = k then some b else Memory.read rest k

/-- Write one byte, keeping the addresses rising. -/
def Memory.write : Memory → Nat → Byte → Memory
  | [], k, v => [(k, v)]
  | (a, b) :: rest, k, v =>
    if k < a then (k, v) :: (a, b) :: rest
    else if k = a then (k, v) :: rest
    else (a, b) :: Memory.write rest k v

/-- Write consecutive bytes, the first at address `k` (R44). -/
def Memory.writeBytes : Memory → Nat → List Byte → Memory
  | m, _, [] => m
  | m, k, b :: bs => Memory.writeBytes (m.write k b) (k + 1) bs

/-- The address of property `index` of `group`. An index is the mathematical sum `start + i` of R44, below 512, and is not
wrapped at 256 (log entry 7). -/
def propKey (group : Byte) (index : Nat) : Nat := group.toNat * 512 + index

/-- Read one property of the chip. -/
def State.property (s : State) (group : Byte) (index : Nat) : Option Byte := s.chip.props.read (propKey group index)

end Sys2Proof.Machine
end

