-- ==== Sys2Proof/Machine/Operands.lean ====
section
/-! DEFINITION. The operand forms: the assembly of a packet's bits from DATA words (30_encoding.md R65, R70), the ranges of
the operands (R70, R178 (b)), and the reads of the tables and of the packet bit store (20_memory.md R40 to R43, R48). -/

namespace Sys2Proof.Machine

/-- The number of DATA words that follow an ASSIGN header: ceil(size / 32) (R65). -/
def dataWordCount (size : PktLen) : Nat := (size.toNat + 31) / 32

/-- Packet bit `i`: bit `31 - (i mod 32)` of DATA word `i div 32` (R65). -/
def packetBit (words : List Arg) (i : Nat) : Bool := (words.getD (i / 32) 0#32).getLsbD (31 - i % 32)

/-- The `size` packet bits of a sequence of DATA words, index 0 first (R65). -/
def packetBits (size : PktLen) (words : List Arg) : List Bool := (List.range size.toNat).map (packetBit words)

/-- The bits of the DATA words beyond bit `size - 1` are zero (R65). -/
def paddingZero (size : PktLen) (words : List Arg) : Bool :=
  (List.range (32 * words.length - size.toNat)).all fun j => !packetBit words (size.toNat + j)

/-- The argument of DATA word `j` of a packet: bit `31 - b` is packet bit `32 * j + b`, zero beyond the last (R65). -/
def dataWordOf (bits : List Bool) (j : Nat) : Arg :=
  (BitVec.ofBoolListBE ((List.range 32).map fun b => bits.getD (32 * j + b) false)).cast (by simp)

/-- The DATA words of a packet (R65). -/
def dataWordsOf (bits : List Bool) : List Arg := (List.range ((bits.length + 31) / 32)).map (dataWordOf bits)

/-- `ch < NCH` (R70). -/
def channelInRange (c : Cfg) (ch : ChanIx) : Bool := decide (ch.toNat < c.nch)

/-- `size <= PKT_MAX_BITS` (R70). -/
def sizeInRange (c : Cfg) (size : PktLen) : Bool := decide (size.toNat ≤ c.pktMaxBits)

/-- `level < NPWR` (R70). -/
def levelInRange (c : Cfg) (level : Byte) : Bool := decide (level.toNat < c.npwr)

/-- `CHANNELS[ch].ordinal` (R42); none outside the table (R48). -/
def channelOrdinal (c : Cfg) (ch : ChanIx) : Option Byte := c.channels[ch.toNat]?.map (·.ordinal)

/-- `POWER_TABLE[level]` (R43); none outside the table (R48). -/
def powerEntryAt (c : Cfg) (level : Nat) : Option PowerEntry := c.powerTable[level]?

/-- `PKTMEM[PKT_CUR]` (R41); none outside the array (R48). -/
def currentPacketBit (s : State) : Option Bool := s.pktMem[s.pktCur.toNat]?

/-- PKTMEM with `bits` in the cells from index 0 up and the other cells as they were (R92). -/
def pktMemWith (mem : List Bool) (bits : List Bool) : List Bool := bits ++ mem.drop bits.length

/-- The channel whose noise floor the block asks for (R45, R106); the answer is `ev.nf`. -/
def noiseFloorChannel (s : State) : ChanIx := s.chan

end Sys2Proof.Machine
end

