-- ==== Sys2Proof/Machine/Flags.lean ====
section
/-! DEFINITION. The comparison results of one event, none of which is stored (10_state.md R22): the gate conditions, the age
and interval tests (41_mode_switch_cca.md R101 to R111), end-of-frame (42_tx_shift.md R121), and the chip's fault bit
(R23, R143, R148). Differences and sums are taken on mathematical integers (R8, R109, R110). -/

namespace Sys2Proof.Machine

/-- Condition 2: `BITPOS == CCA_BIT` (R102). -/
def atCcaBit (s : State) : Bool := s.bitPos == s.cfg.ccaBit

/-- Condition 3: `PKT_CHAN == CHAN` (R103). -/
def onPacketChannel (s : State) : Bool := s.pktChan == s.chan

/-- Condition 5: `UTC != 0` (R107). -/
def timeKnown (s : State) : Bool := s.utc != 0#32

/-- `UTC - PKT_TS`, never wrapped (R109). -/
def packetAge (s : State) : Int := (s.utc.toNat : Int) - (s.pktTs.toNat : Int)

/-- `UTC - LASTTX`, never wrapped (R109). -/
def sinceLastTx (s : State) : Int := (s.utc.toNat : Int) - (s.lastTx.toNat : Int)

/-- Age policy: `UTC - PKT_TS > MAX_AGE`, strict (R108). -/
def stale (s : State) : Bool := decide (packetAge s > (s.cfg.maxAge.toNat : Int))

/-- Condition 4, clearance: `rssi <= nf + 12`, without wrap (R110). -/
def channelClear (rssi nf : Rssi) : Bool := decide (rssi.toNat ≤ nf.toNat + ccaMargin)

/-- Throttle: `UTC - LASTTX >= MIN_TX_INTERVAL`, inclusive (R111). -/
def intervalElapsed (s : State) : Bool := decide (sinceLastTx s ≥ (s.cfg.minTxInterval.toNat : Int))

/-- End-of-frame: `PKT_CUR == PKT_SIZE` (R121). -/
def endOfFrame (s : State) : Bool := s.pktCur == s.pktSize

/-- The reply to GET_CHIP_STATUS: three fields of STATUS_W bits, bit 0 first (R77, R143). -/
structure StatusReply where
  pending : List Bool
  current : List Bool
  error   : List Bool
  deriving DecidableEq, Repr

/-- A reply whose `current[3]` is the answer `fault` of the event (R25, R62) and whose other bits are free values: reply
number `n`, under STATUS_W = `w`. -/
def statusReply (w n : Nat) (fault : Bool) : StatusReply where
  pending := (List.range w).map fun i => Config.freeStatusBit n i
  current := (List.range w).map fun i => if i = 3 then fault else Config.freeStatusBit n (w + i)
  error   := (List.range w).map fun i => Config.freeStatusBit n (2 * w + i)

/-- The one bit of the reply the block reads: bit 3 of `current` (R23, R148). -/
def faultBit (r : StatusReply) : Bool := r.current.getD 3 false

end Sys2Proof.Machine
end

