-- ==== Sys2Proof/Machine/Ops.lean ====
section
/-! DEFINITION. The shared operations: emitting an action, the chip exchanges (44_chip_config.md R140 to R147), the pin and
power sub-sequences (R144 to R146), EnterReceive (43_slot_coordinator.md R133), the transmit start and its recovery
(41_mode_switch_cca.md R113, R114), TxComplete and ShiftBit (42_tx_shift.md R122, R123), the hand-over of a packet (R92),
the fatal assertion (60_exceptions.md R173) with reset as the only way back (R175, R200), and the guards of R178, R179, R72. -/

namespace Sys2Proof.Machine

/-- The outcome of one step of this machine. -/
abbrev Result := Host.Outcome State Fault Refusal

/-- Go on with the next state; a fault or a refusal ends the event. -/
def andThen (r : Result) (k : State → Result) : Result :=
  match r with
  | .next s => k s
  | .fault f => .fault f
  | .refused x => .refused x

/-- `Emit(a)` (R8, R24). -/
def State.emit (s : State) (a : Action) : State := { s with trace := s.trace ++ [a] }

/-! ### Failures -/

/-- `raise AssertFail(code)`: FAULT, then the log line, then the end of the event; nothing else changes (R173). -/
def raiseAssert (code : FaultCode) (s : State) : State :=
  State.emit { s with fault := code } (.log .assertDoubleAssign)

/-- Reset of a running machine, the only return from the fatal assertion (R175, R179, R200). It emits no action and leaves
the chip as it is (R201); the configuration, the items still to come and the record of actions are not the block's
registers and stay (log entry 12). Fetching refuses it inside an ASSIGN sequence (log entry 2). -/
def applyReset (d : ResetDraw) (s : State) : State :=
  { State.resetWith s.cfg d s.chip.pins with chip := s.chip, port := s.port, trace := s.trace }

/-- While FAULT is not NONE no instruction has a step (R179). -/
def unlessStopped (s : State) (k : Result) : Result :=
  match s.fault with
  | .none => k
  | .doubleAssign => .fault .stopped

/-- The guard of every event but DATA: the block is not stopped, and no ASSIGN sequence is in progress (R65, R179). -/
def admitEvent (s : State) (k : Result) : Result :=
  unlessStopped s (if s.arriving.isSome then .refused .insideAssign else k)

/-- The guard where no further word of the event port comes: an ASSIGN sequence that lacks DATA words there has too few of
them and is refused (R65, R72, R178 (a); vector V107). The stopped block refuses nothing: it holds, or is reset (R179). -/
def unlessCutShort (s : State) (k : Result) : Result :=
  match s.fault with
  | .none => if s.arriving.isSome then .refused .tooFewDataWords else k
  | .doubleAssign => k

/-- The guard of STARTRX, CONFIGURE, SETPWR and CWTEST (R178 (c)). -/
def unlessTransmitting (s : State) (k : Result) : Result :=
  match s.mode with
  | .receiving => k
  | .transmitting => .refused .whileTransmitting

/-! ### The chip exchanges -/

/-- SET_PROPERTY: property `start + i` of the group takes `bytes[i]` for `i` below `count` (R141, R44). -/
def chipSetProperty (group count start : Byte) (bytes : List Byte) (s : State) : State :=
  State.emit
    { s with chip := { s.chip with
        props := s.chip.props.writeBytes (propKey group start.toNat) (bytes.take count.toNat) } }
    (.cmd (.setProperty group count start bytes))

/-- GPIO_PIN_CFG: each pin takes the function in its field and the general-config byte is applied (R147). -/
def chipGpioPinCfg (pins : PinMap) (s : State) : State :=
  State.emit { s with chip := { s.chip with pins := pins } } (.cmd (.gpioPinCfg pins))

/-- START_TX: begin a transmission (R142). What the radio then does is the chip's business (R114). -/
def chipStartTx (channel condition length delay reps : Byte) (s : State) : State :=
  s.emit (.cmd (.startTx channel condition length delay reps))

/-- GET_CHIP_STATUS: the command alone (R143). -/
def chipGetStatus (s : State) : State := s.emit (.cmd .getChipStatus)

/-- The reply to the GET_CHIP_STATUS just sent, when the event's fault answer is `fault` (R25, R143). Replies are numbered
by the actions emitted so far, so that the bits no rule reads may differ from reply to reply (log entry 9). -/
def chipReply (fault : Bool) (s : State) : StatusReply := statusReply s.cfg.statusW s.trace.length fault

/-! ### Pins and power -/

/-- The pin functions of transmit (R144). -/
def txPins (k : ChipConsts) : PinMap :=
  ⟨k.gpio0Tx, k.gpiofTxDataIn, k.gpiofBitclkTx, k.gpiofRxtxState, k.gpiofSyncDetect, k.sdoTx, k.gencfgTx⟩

/-- The pin functions of receive (R145). -/
def rxPins (k : ChipConsts) : PinMap :=
  ⟨k.gpio0Rx, k.gpiofRxData, k.gpiofBitclkRx, k.gpiofRxtxState, k.gpiofSyncDetect, k.sdoRx, k.gencfgRx⟩

/-- The three data bytes of a power entry, in the order of R146. -/
def PowerEntry.bytes (e : PowerEntry) : List Byte := [e.mode, e.level, e.biasDuty]

/-- Send one power entry to the chip (R146). -/
def sendPower (e : PowerEntry) (s : State) : State :=
  chipSetProperty s.cfg.chip.paGroup 3#8 s.cfg.chip.paStart (PowerEntry.bytes e) s

/-- SetTXPower(level) (R146). -/
def setTxPower (level : Nat) (s : State) : Result :=
  match powerEntryAt s.cfg level with
  | some e => .next (sendPower e s)
  | none => .refused .levelOutOfRange

/-- Write BITPIN_DIR and emit the pin mode (R144, R145). -/
def setPinDir (d : PinDir) (s : State) : State := State.emit { s with bitPinDir := d } (.pinMode d)

/-- Write PA_BIAS and emit the level (R133, R144). -/
def setBias (b : Bool) (s : State) : State := State.emit { s with paBias := b } (.bias b)

/-- ConfigGPIOsForTX(level) (R144). -/
def configGpiosForTx (level : Nat) (s : State) : Result :=
  andThen (setTxPower level (chipGpioPinCfg (txPins s.cfg.chip) (setPinDir .output s))) fun s' =>
    .next (setBias true s')

/-- ConfigGPIOsForRX() (R145). -/
def configGpiosForRx (s : State) : State := chipGpioPinCfg (rxPins s.cfg.chip) (setPinDir .input s)

/-! ### Reception and transmission -/

/-- EnterReceive(ch) (R133). What the receive path does to the chip at RxStartReceiving is outside the spec and not in `chip`
(log entry 6). -/
def enterReceive (ch : ChanIx) (s : State) : State :=
  { State.emit (configGpiosForRx (setBias false s)) (.rxStartReceiving ch) with chan := ch }

/-- START_TX on a channel index with a condition code: length and delay zero, the configured repeat count (R113, R142,
R156). -/
def startTxOn (ch : ChanIx) (condition : Byte) (s : State) : Result :=
  match channelOrdinal s.cfg ch with
  | some ordinal => .next (chipStartTx ordinal condition 0#8 0#8 s.cfg.chip.txRepeat s)
  | none => .refused .channelOutOfRange

/-- TxStartFailed (R114). -/
def txStartFailed (s : State) : State :=
  enterReceive s.chan { s.emit (.log (.txStartFailed s.chan)) with mode := .receiving }

/-- StartTransmitting (R113), with the fault answer of the event. -/
def startTransmitting (fault : Bool) (s : State) : Result :=
  andThen (configGpiosForTx s.cfg.txPowerLevel { s with mode := .transmitting }) fun s1 =>
    andThen (startTxOn s1.pktChan s1.cfg.chip.txCondNormal s1) fun s2 =>
      if faultBit (chipReply fault (chipGetStatus s2)) then .next (txStartFailed (chipGetStatus s2))
      else .next (chipGetStatus s2)

/-- The age discard: the packet back to the pool, the slot emptied, a log line (R108, R172). -/
def discardStale (s : State) : State :=
  State.emit { s.emit .poolFree with pktValid := false } (.log (.staleDiscard (packetAge s) s.pktChan))

/-- TxComplete (R122). -/
def txComplete (s : State) : State :=
  let s1 := State.emit { s with lastTx := s.utc } (.blink s.cfg.blinkTxTag)
  let s2 := enterReceive s1.pktChan { s1 with mode := .receiving }
  let s3 := (s2.emit (.log (.txDone s2.pktCur s2.pktChan))).emit .poolFree
  { s3 with pktValid := false }

/-- ShiftBit (R123). -/
def shiftBit (s : State) : Result :=
  match currentPacketBit s with
  | some b => .next (State.emit { s with pktCur := s.pktCur + 1#16, txLine := b } (.pinLevel b))
  | none => .refused .packetIndexOutOfRange

/-- The hand-over of one packet, when its whole sequence has arrived (R92, R93): the fatal assertion if a packet is held. -/
def assignPacket (ch : ChanIx) (size : PktLen) (bits : List Bool) (s : State) : State :=
  if s.pktValid then raiseAssert .doubleAssign s
  else
    { s with
      pktValid := true
      pktChan  := ch
      pktTs    := s.utc
      pktSize  := size
      pktCur   := 0#16
      pktMem   := pktMemWith s.pktMem bits }

end Sys2Proof.Machine
end

