-- ==== Sys2Proof/Machine/ChipCommands.lean ====
section
/-! DEFINITION. The four chip commands, each as one exchange on its own (44_chip_config.md R140 to R143, R147): the action
`Cmd(...)` is emitted and the chip takes the effect the spec states. The events make the same exchanges through the same
operations. A stopped block makes none (R179, log entry 18). -/

namespace Sys2Proof.Machine

/-- SET_PROPERTY (R141). -/
def execSetProperty (group count start : Byte) (bytes : List Byte) (s : State) : Result :=
  unlessStopped s (.next (chipSetProperty group count start bytes s))

/-- GPIO_PIN_CFG (R147). -/
def execGpioPinCfg (pins : PinMap) (s : State) : Result := unlessStopped s (.next (chipGpioPinCfg pins s))

/-- START_TX (R142). -/
def execStartTx (channel condition length delay reps : Byte) (s : State) : Result :=
  unlessStopped s (.next (chipStartTx channel condition length delay reps s))

/-- GET_CHIP_STATUS (R143): on its own its reply has no reader. -/
def execGetChipStatus (s : State) : Result := unlessStopped s (.next (chipGetStatus s))

end Sys2Proof.Machine
end

