-- ==== Sys2Proof/Machine/ChipConfig.lean ====
section
/-! DEFINITION. Chip set-up and maintenance: CONFIGURE, SETPWR, CWTEST (44_chip_config.md R150, R153, R156). -/

namespace Sys2Proof.Machine

/-- The modulation property of CONFIGURE (R150). -/
def sendModulation (s : State) : State :=
  chipSetProperty s.cfg.chip.modGroup 1#8 s.cfg.chip.modStart [s.cfg.chip.modTypeValue] s

/-- The filter table of CONFIGURE, under FILTER_SHAPING = BT04 only (R150, R151). -/
def sendFilter (s : State) : State :=
  match s.cfg.filterShaping with
  | .off => s
  | .bt04 => chipSetProperty s.cfg.chip.filtGroup 9#8 s.cfg.chip.filtStart s.cfg.chip.bt04Coeff.toList s

/-- CONFIGURE (R150). The receive path configures the chip at RxConfigure; what it writes there the spec leaves open, and
`chip` holds the block's own writes only (DESIGN CHOICE, log entry 6). -/
def execConfigure (s : State) : Result :=
  admitEvent s (unlessTransmitting s (.next (sendFilter (sendModulation (s.emit .rxConfigure)))))

/-- SETPWR (R153). -/
def execSetpwr (level : Byte) (s : State) : Result :=
  admitEvent s <|
    if !levelInRange s.cfg level then .refused .levelOutOfRange
    else unlessTransmitting s (setTxPower level.toNat s)

/-- CWTEST (R156): the fault bit is reported in the log line and has no other effect. -/
def execCwtest (ch : ChanIx) (fault : Bool) (s : State) : Result :=
  admitEvent s <|
    if !channelInRange s.cfg ch then .refused .channelOutOfRange
    else unlessTransmitting s <|
      if s.pktValid then .refused .packetHeld
      else
        andThen (configGpiosForTx s.cfg.txPowerLevel (enterReceive ch s)) fun s1 =>
          andThen (startTxOn ch s1.cfg.chip.txCondCw s1) fun s2 =>
            let s3 := chipGetStatus s2
            .next (s3.emit (.log (.cwStatus ch (faultBit (chipReply fault s3)))))

end Sys2Proof.Machine
end

