-- ==== Sys2Proof/Machine/HostEvents.lean ====
section
/-! DEFINITION. The host events UTC, ASSIGN and its continuation word DATA (40_host_events.md R90 to R93, 30_encoding.md
R65). -/

namespace Sys2Proof.Machine

/-- UTC (R90). -/
def execUtc (t : Time) (s : State) : Result := admitEvent s (.next { s with utc := t })

/-- ASSIGN, its header word (R92): out-of-range operands are refused (R178 (b)); an empty packet has no DATA word and is
handed over at once; otherwise the block waits for the DATA words and acts when the last has arrived (R65). -/
def execAssign (ch : ChanIx) (size : PktLen) (s : State) : Result :=
  admitEvent s <|
    if !channelInRange s.cfg ch then .refused .channelOutOfRange
    else if !sizeInRange s.cfg size then .refused .sizeOutOfRange
    else if dataWordCount size = 0 then .next (assignPacket ch size [] s)
    else .next { s with arriving := some ⟨ch, size, []⟩ }

/-- DATA (R65): one more word of the ASSIGN sequence in progress; with the last one the packet is handed over (R92). A DATA
word outside a sequence, and a non-zero padding bit, are reserved encodings (R72). -/
def execData (bits : Arg) (s : State) : Result :=
  unlessStopped s <|
    match s.arriving with
    | none => .refused .dataOutsideAssign
    | some a =>
      let got := a.got ++ [bits]
      if got.length < dataWordCount a.size then .next { s with arriving := some { a with got := got } }
      else if !paddingZero a.size got then .refused .paddingNotZero
      else .next (assignPacket a.ch a.size (packetBits a.size got) { s with arriving := none })

end Sys2Proof.Machine
end

