-- ==== Sys2Proof/Machine/SlotEvents.lean ====
section
/-! DEFINITION. The slot coordinator: SLOT and STARTRX (43_slot_coordinator.md R130, R132). -/

namespace Sys2Proof.Machine

/-- A packet is held for a channel the radio is not tuned to, and the block is receiving: the retune condition of R130. -/
def retuneDue (s : State) : Bool := s.mode == .receiving && s.pktValid && s.pktChan != s.chan

/-- SLOT (R130). -/
def execSlot (slot : SlotNo) (s : State) : Result :=
  admitEvent s <|
    let s' := s.emit (.rxTimeSlotStarted slot)
    if retuneDue s' then .next (enterReceive s'.pktChan s') else .next s'

/-- STARTRX (R132). -/
def execStartrx (ch : ChanIx) (s : State) : Result :=
  admitEvent s <|
    if !channelInRange s.cfg ch then .refused .channelOutOfRange
    else unlessTransmitting s (.next (enterReceive ch s))

end Sys2Proof.Machine
end

