-- ==== Sys2Proof/Machine/Tick.lean ====
section
/-! DEFINITION. TICK: its dispatch and its two behaviours (41_mode_switch_cca.md R100 to R112, 42_tx_shift.md R120). -/

namespace Sys2Proof.Machine

/-- The normal-mode policy once conditions 1, 2 and 3 hold: time known, age, clearance, throttle, in the order of R101 and
R105. -/
def normalPolicy (rssi nf : Rssi) (fault : Bool) (s : State) : Result :=
  if !timeKnown s then .next s
  else if stale s then .next (discardStale s)
  else if !channelClear rssi nf then .next s
  else if intervalElapsed s then startTransmitting fault s
  else .next s

/-- TickReceiving (R101), test mode included (R104). -/
def tickReceiving (pos : BitPos) (rssi nf : Rssi) (fault : Bool) (s : State) : Result :=
  let s := { s.emit .rxOnBitClock with bitPos := pos }
  if !s.pktValid then .next s
  else if !atCcaBit s then .next s
  else if !onPacketChannel s then .next s
  else if s.cfg.testMode then startTransmitting fault s
  else normalPolicy rssi nf fault s

/-- TickTransmitting (R120): no operand is consumed. -/
def tickTransmitting (s : State) : Result := if endOfFrame s then .next (txComplete s) else shiftBit s

/-- TICK (R100): the value of MODE at the start selects the behaviour. -/
def execTick (pos : BitPos) (rssi nf : Rssi) (fault : Bool) (s : State) : Result :=
  admitEvent s <|
    match s.mode with
    | .receiving => tickReceiving pos rssi nf fault s
    | .transmitting => tickTransmitting s

end Sys2Proof.Machine
end

