-- ==== Sys2Proof/Machine/Dispatch.lean ====
section
/-! DEFINITION. One arm per constructor of Instr. -/

namespace Sys2Proof.Machine

def exec (i : Instr) (s : State) : Host.Outcome State Fault Refusal :=
  match i with
  | .tick pos rssi nf fault => Sys2Proof.Machine.execTick pos rssi nf fault s
  | .slot slot => Sys2Proof.Machine.execSlot slot s
  | .utc t => Sys2Proof.Machine.execUtc t s
  | .assign ch size => Sys2Proof.Machine.execAssign ch size s
  | .startrx ch => Sys2Proof.Machine.execStartrx ch s
  | .configure => Sys2Proof.Machine.execConfigure s
  | .setpwr level => Sys2Proof.Machine.execSetpwr level s
  | .cwtest ch fault => Sys2Proof.Machine.execCwtest ch fault s
  | .data bits => Sys2Proof.Machine.execData bits s
  | .setProperty group count start bytes => Sys2Proof.Machine.execSetProperty group count start bytes s
  | .gpioPinCfg pins => Sys2Proof.Machine.execGpioPinCfg pins s
  | .startTx channel condition length delay reps => Sys2Proof.Machine.execStartTx channel condition length delay reps s
  | .getChipStatus => Sys2Proof.Machine.execGetChipStatus s

end Sys2Proof.Machine
end

