-- ==== Sys2Proof/Machine/Fetch.lean ====
section
/-! DEFINITION. What step takes from the machine's inputs (10_state.md R14, R26; 30_encoding.md R60): the block fetches no
instructions, the arriving event selects what it does. -/

namespace Sys2Proof.Machine

/-- An undecodable item: no step, and the stopped block stays stopped (R72, R178 (a), R179). -/
def refuseEncoding (e : DecodeError) (s : State) : Result := unlessStopped s (.refused (.reservedEncoding e))

/-- One step, over the meaning `run` of an instruction: with no item delivered the block holds its state (R186); the reset
input resets it (R200); an item that decodes is run with itself taken off the port. The end of the items, and the reset, cut
an ASSIGN sequence in progress short: the port holds the words of one event together (R65, log entry 2). -/
def stepWith (run : Instr → State → Result) (s : State) : Result :=
  match s.port with
  | [] => unlessCutShort s (.next s)
  | .rst d :: rest => unlessCutShort s (.next (applyReset d { s with port := rest }))
  | .wire x :: rest =>
    match decode s.cfg.chip x with
    | .ok i => run i { s with port := rest }
    | .error e => refuseEncoding e { s with port := rest }

/-- Whether a wire item is a DATA word. -/
def isDataWord (x : Wire) : Bool :=
  match x with
  | .word w => opOf w == 0x80#8
  | .frame _ => false

/-- The header a DATA word needs before it, where none is in progress: ASSIGN ch=0 with one DATA word of 32 bits. -/
def headerForData (s : State) : Option Arriving :=
  match s.arriving with
  | some a => some a
  | none => some ⟨0#4, 32#16, []⟩

/-- The state with one wire item as the next to be taken; for a DATA word its header has been received (log entry 17). -/
def withNextWire (x : Wire) (s : State) : State :=
  { s with
    port     := .wire x :: s.port
    arriving := if isDataWord x then headerForData s else s.arriving }

end Sys2Proof.Machine
end

