-- ==== Sys2Proof/Machine/Step.lean ====
section
/-! DEFINITION. One step of the machine. -/

namespace Sys2Proof.Machine

/-- One step: the next input item is taken and run (00_scope.md R4, R5). -/
def step (s : State) : Host.Outcome State Fault Refusal := stepWith exec s

/-- The state whose next step runs the instruction with the bits `w`, numbered as the opcode table numbers them. -/
def State.withFetchWord (s : State) (nbits w : Nat) : State := withNextWire (wireOfTable nbits w) s

end Sys2Proof.Machine
end

