-- ==== Sys2Proof/Machine/Environment.lean ====
section
/-! DEFINITION. The environment's side: sequences of events, the event sequence of one ASSIGN (30_encoding.md R65), the
pseudo-events RUN and SHIFT (R79), the trace text of an event (R78), and the reference bit counter, which is not part of the
block and not normative (70_reset_and_hazards.md R216). -/

namespace Sys2Proof.Machine

/-- Run a list of instructions one after the other, stopping at the first fault or refusal (R5). -/
def execAll : List Instr → State → Result
  | [], s => .next s
  | i :: rest, s => andThen (exec i s) (execAll rest)

/-- Deliver a list of instructions at the inputs, behind what is already there. -/
def State.deliver (s : State) (is : List Instr) : State :=
  { s with port := s.port ++ is.map fun i => .wire (encode s.cfg.chip i) }

/-- The words of one ASSIGN event: the header and its DATA words (R65). -/
def assignSequence (ch : ChanIx) (bits : List Bool) : List Instr :=
  .assign ch (BitVec.ofNat 16 bits.length) :: (dataWordsOf bits).map .data

/-- `RUN k pos=p` (R79). A position beyond the 10 bits of the field is taken modulo 1024: the spec does not say what it
expands to (DESIGN CHOICE, log entry 26). -/
def runTicks (k p : Nat) : List Instr :=
  (List.range k).map fun j => .tick (BitVec.ofNat 10 (p + j)) 0#8 0#8 false

/-- `SHIFT k` (R79). -/
def shiftTicks (k : Nat) : List Instr := List.replicate k (.tick 0#10 0#8 0#8 false)

/-- The word `fault` of a trace line (R78). -/
def faultWord (fault : Bool) : String := if fault then " fault" else ""

/-- The trace line of an event of one word (R78); the line of an ASSIGN is `assignLine`, and chip commands have none. -/
def traceLine : Instr → Option String
  | .tick pos rssi nf fault =>
    some ("TICK pos=" ++ toString pos.toNat ++ " rssi=" ++ toString rssi.toNat ++ " nf=" ++ toString nf.toNat
      ++ faultWord fault)
  | .slot slot => some ("SLOT " ++ toString slot.toNat)
  | .utc t => some ("UTC " ++ toString t.toNat)
  | .startrx ch => some ("STARTRX " ++ toString ch.toNat)
  | .configure => some "CONFIGURE"
  | .setpwr level => some ("SETPWR " ++ toString level.toNat)
  | .cwtest ch fault => some ("CWTEST " ++ toString ch.toNat ++ faultWord fault)
  | .assign _ _ => none
  | .data _ => none
  | .setProperty _ _ _ _ => none
  | .gpioPinCfg _ => none
  | .startTx _ _ _ _ _ => none
  | .getChipStatus => none

/-- The trace line of an ASSIGN event; the first character is bit 0 (R78). -/
def assignLine (ch : ChanIx) (bits : List Bool) : String :=
  "ASSIGN ch=" ++ toString ch.toNat ++ " bits=" ++ String.ofList (bits.map fun b => if b then '1' else '0')

/-- The reference receive-path counter (R216): SLOT sets it to 0, TICK is given its value as `pos` and then it increments.
It returns the new counter and the event as delivered. Its increment at 1023 wraps to 0 (DEDUCED, log entry 26). -/
def referencePos (c : BitPos) (i : Instr) : BitPos × Instr :=
  match i with
  | .slot slot => (0#10, .slot slot)
  | .tick _ rssi nf fault => (c + 1#10, .tick c rssi nf fault)
  | .utc t => (c, .utc t)
  | .assign ch size => (c, .assign ch size)
  | .startrx ch => (c, .startrx ch)
  | .configure => (c, .configure)
  | .setpwr level => (c, .setpwr level)
  | .cwtest ch fault => (c, .cwtest ch fault)
  | .data bits => (c, .data bits)
  | .setProperty group count start bytes => (c, .setProperty group count start bytes)
  | .gpioPinCfg pins => (c, .gpioPinCfg pins)
  | .startTx channel condition length delay reps => (c, .startTx channel condition length delay reps)
  | .getChipStatus => (c, .getChipStatus)

end Sys2Proof.Machine
end

