-- ==== Sys2Proof/Machine/Ports.lean ====
section
/-! DEFINITION. What stands on the block's output lines (10_state.md R26), the numbers R10 gives the named register values,
the log kinds of 60_exceptions.md R177, and the frames of the chip commands on the transport (30_encoding.md R73 to R77). -/

namespace Sys2Proof.Machine

/-- The number R10 gives a value of MODE. -/
def Mode.code : Mode → BitVec 1
  | .receiving => 0#1
  | .transmitting => 1#1

/-- The number R10 gives a value of BITPIN_DIR. -/
def PinDir.code : PinDir → BitVec 1
  | .input => 0#1
  | .output => 1#1

/-- The number R10 gives a value of FAULT; 2 and 3 are unused. -/
def FaultCode.code : FaultCode → BitVec 2
  | .none => 0#2
  | .doubleAssign => 1#2

/-- The kind of a log line (R177). -/
def LogLine.kind : LogLine → Nat
  | .staleDiscard _ _ => 1
  | .txStartFailed _ => 2
  | .txDone _ _ => 3
  | .cwStatus _ _ => 4
  | .assertDoubleAssign => 5

/-- The level outputs of R26. -/
structure Lines where
  /-- `tx_data`: TXLINE, driven only while `tx_oe` is 1 (R19); none where the block does not drive it. -/
  txData : Option Bool
  /-- `tx_oe` = BITPIN_DIR. -/
  txOe : BitVec 1
  /-- `pa_bias_en` = PA_BIAS. -/
  paBiasEn : Bool
  /-- `nf_ch` = CHAN, the channel whose noise floor is asked. -/
  nfCh : ChanIx
  /-- `mode` = MODE, read by the receive path. -/
  mode : BitVec 1
  deriving DecidableEq, Repr

/-- The output lines in a state (R19, R26). -/
def State.lines (s : State) : Lines where
  txData   := match s.bitPinDir with
    | .output => some s.txLine
    | .input => none
  txOe     := s.bitPinDir.code
  paBiasEn := s.paBias
  nfCh     := noiseFloorChannel s
  mode     := s.mode.code

/-- The instruction whose exchange a command action records. -/
def Cmd.instr : Cmd → Instr
  | .setProperty group count start bytes => .setProperty group count start bytes
  | .gpioPinCfg pins => .gpioPinCfg pins
  | .startTx channel condition length delay reps => .startTx channel condition length delay reps
  | .getChipStatus => .getChipStatus

/-- The frame of a command on the chip transport (R73). -/
def Cmd.frame (k : ChipConsts) (c : Cmd) : Wire := encode k c.instr

/-- The levels of the `PinLevel` actions of a record of actions, in order (R24, R125). -/
def pinLevels (acts : List Action) : List Bool :=
  acts.filterMap fun a =>
    match a with
    | .pinLevel b => some b
    | _ => none

end Sys2Proof.Machine
end

