-- ==== Sys2Proof/Safety.lean ====
section
/-! DEFINITION. What counts as a good state, an admitted event and a run that ended well: the invariants of 10_state.md R27,
R28, R32, R33 and the ranges of R10; the complete list of refusals of 60_exceptions.md R178; 70_reset_and_hazards.md R217. -/

namespace Sys2Proof.Machine

/-- The invariant of the machine. -/
structure State.Inv (s : State) : Prop where
  /-- The configuration lies in the ranges of R6. -/
  cfgInRange : s.cfg.wf = true
  /-- CHAN < NCH (R10). -/
  chanInTable : s.chan.toNat < s.cfg.nch
  /-- PKT_CHAN < NCH for a held packet (R10). -/
  pktChanInTable : s.pktValid = true → s.pktChan.toNat < s.cfg.nch
  /-- PKT_SIZE <= PKT_MAX_BITS for a held packet (R32). -/
  sizeFits : s.pktValid = true → s.pktSize.toNat ≤ s.cfg.pktMaxBits
  /-- PKT_CUR <= PKT_SIZE for a held packet (R32). -/
  cursorFits : s.pktValid = true → s.pktCur.toNat ≤ s.pktSize.toNat
  /-- PKT_CUR = 0 for a packet held in RECEIVING (R32). -/
  cursorZero : s.pktValid = true → s.mode = .receiving → s.pktCur = 0#16
  /-- PKTMEM has PKT_MAX_BITS cells (R18). -/
  memLength : s.pktMem.length = s.cfg.pktMaxBits
  /-- MODE = TRANSMITTING implies PKT_VALID = 1 (R27). -/
  txHoldsPacket : s.mode = .transmitting → s.pktValid = true
  /-- CHAN = PKT_CHAN throughout a transmission (R28). -/
  txOnChannel : s.mode = .transmitting → s.chan = s.pktChan
  /-- The pin is an output and the bias is up throughout a transmission (R113, R124). -/
  txKeyed : s.mode = .transmitting → s.paBias = true ∧ s.bitPinDir = .output
  /-- An ASSIGN sequence in progress has operands in range and lacks at least one DATA word (R65, R92). -/
  arrivingFits : ∀ a, s.arriving = some a →
    a.ch.toNat < s.cfg.nch ∧ a.size.toNat ≤ s.cfg.pktMaxBits ∧ a.got.length < dataWordCount a.size
  /-- The chip property space has its canonical form. -/
  propsCanonical : s.chip.props.wf

/-- R33: the bias is up only in TRANSMITTING, and in RECEIVING the pin is an input. -/
def BiasOnlyInTransmit (s : State) : Prop :=
  (s.paBias = true → s.mode = .transmitting) ∧ (s.mode = .receiving → s.bitPinDir = .input)

/-- The combinations of instruction and state that have a step: FAULT = NONE (R179) and none of the refusals of R178. -/
def admitted (i : Instr) (s : State) : Bool :=
  s.fault == .none &&
    match i with
    | .tick _ _ _ _ => s.arriving.isNone
    | .slot _ => s.arriving.isNone
    | .utc _ => s.arriving.isNone
    | .assign ch size => s.arriving.isNone && decide (ch.toNat < s.cfg.nch) && decide (size.toNat ≤ s.cfg.pktMaxBits)
    | .startrx ch => s.arriving.isNone && decide (ch.toNat < s.cfg.nch) && s.mode == .receiving
    | .configure => s.arriving.isNone && s.mode == .receiving
    | .setpwr level => s.arriving.isNone && decide (level.toNat < s.cfg.npwr) && s.mode == .receiving
    | .cwtest ch _ => s.arriving.isNone && decide (ch.toNat < s.cfg.nch) && s.mode == .receiving && !s.pktValid
    | .data bits =>
      match s.arriving with
      | none => false
      | some a => decide (a.got.length + 1 < dataWordCount a.size) || paddingZero a.size (a.got ++ [bits])
    | .setProperty _ _ _ _ => true
    | .gpioPinCfg _ => true
    | .startTx _ _ _ _ _ => true
    | .getChipStatus => true

/-- A run ended well (R217): it answered a state with FAULT = NONE, MODE = RECEIVING and PA_BIAS = 0, and no event of it was
refused. An ASSIGN sequence that still lacks DATA words at the end is a refused event (R72, R178 (a)). -/
def endedWell (r : Result) : Bool :=
  match r with
  | .next s => s.fault == .none && s.mode == .receiving && !s.paBias && s.arriving.isNone
  | .fault _ => false
  | .refused _ => false

end Sys2Proof.Machine
end

