-- ==== Sys2Proof/Certificates/Slice0/Obligations.lean ====
section
/-! DEFINITION. The statements for the provers, one `def Obligations.<Name> : Prop` each. They are about the machine and hold
for every configuration `s.cfg`; where a statement needs the ranges of 00_scope.md R6 it takes them as a premise. Where a
statement gives the chip, or says that its properties read as before, it is what the block's own commands leave in it, across
the delegations to the receive path too: the model's choice, log entry 6. The few
helpers below spell the spec's action runs and table rows out, independently of the operations the meanings use. -/

namespace Sys2Proof.Machine

/-! ### Vocabulary of the statements -/

/-- The block takes an event: FAULT = NONE (R179) and no ASSIGN sequence is in progress (log entry 2). -/
def Ready (s : State) : Prop := s.fault = .none ∧ s.arriving = none

/-- The events: every constructor but the four chip commands. -/
def isEvent : Instr → Bool
  | .tick _ _ _ _ => true
  | .slot _ => true
  | .utc _ => true
  | .assign _ _ => true
  | .startrx _ => true
  | .configure => true
  | .setpwr _ => true
  | .cwtest _ _ => true
  | .data _ => true
  | .setProperty _ _ _ _ => false
  | .gpioPinCfg _ => false
  | .startTx _ _ _ _ _ => false
  | .getChipStatus => false

/-- TICK. -/
def isTick (i : Instr) : Bool :=
  match i with
  | .tick _ _ _ _ => true
  | _ => false

/-- The notifications that may fall inside a transmission: TICK, SLOT, UTC (R125). -/
def isNotification (i : Instr) : Bool :=
  match i with
  | .tick _ _ _ _ => true
  | .slot _ => true
  | .utc _ => true
  | _ => false

/-- The pin functions of receive, field by field (R145). -/
def receivePins (k : ChipConsts) : PinMap where
  gpio0  := k.gpio0Rx
  gpio1  := k.gpiofRxData
  gpio2  := k.gpiofBitclkRx
  gpio3  := k.gpiofRxtxState
  nirq   := k.gpiofSyncDetect
  sdo    := k.sdoRx
  gencfg := k.gencfgRx

/-- The pin functions of transmit, field by field (R144). -/
def transmitPins (k : ChipConsts) : PinMap where
  gpio0  := k.gpio0Tx
  gpio1  := k.gpiofTxDataIn
  gpio2  := k.gpiofBitclkTx
  gpio3  := k.gpiofRxtxState
  nirq   := k.gpiofSyncDetect
  sdo    := k.sdoTx
  gencfg := k.gencfgTx

/-- The actions of EnterReceive(ch), in order (R133, R145). -/
def enterActions (c : Cfg) (ch : ChanIx) : List Action :=
  [.bias false, .pinMode .input, .cmd (.gpioPinCfg (receivePins c.chip)), .rxStartReceiving ch]

/-- The actions of ConfigGPIOsForTX with the power entry `e`, in order (R144, R146). -/
def keyActions (c : Cfg) (e : PowerEntry) : List Action :=
  [.pinMode .output, .cmd (.gpioPinCfg (transmitPins c.chip)),
    .cmd (.setProperty c.chip.paGroup 3#8 c.chip.paStart [e.mode, e.level, e.biasDuty]), .bias true]

/-- START_TX on a channel ordinal with a condition code, then GET_CHIP_STATUS (R113, R156). -/
def startActions (c : Cfg) (ordinal condition : Byte) : List Action :=
  [.cmd (.startTx ordinal condition 0#8 0#8 c.chip.txRepeat), .cmd .getChipStatus]

/-- The address of the first power property (R146). -/
def powerAddress (c : Cfg) : Nat := propKey c.chip.paGroup c.chip.paStart.toNat

/-- The property space after the power entry `e` has been sent (R146). -/
def withPower (c : Cfg) (e : PowerEntry) (m : Memory) : Memory :=
  m.writeBytes (powerAddress c) [e.mode, e.level, e.biasDuty]

/-- Conditions 1, 2 and 3 of the gate at a tick with position `pos` (R101, R102, R103). -/
def Aligned (s : State) (pos : BitPos) : Prop := s.pktValid = true ∧ pos = s.cfg.ccaBit ∧ s.pktChan = s.chan

/-- UTC - PKT_TS on integers (R109). -/
def age (s : State) : Int := (s.utc.toNat : Int) - s.pktTs.toNat

/-- UTC - LASTTX on integers (R109). -/
def elapsed (s : State) : Int := (s.utc.toNat : Int) - s.lastTx.toNat

/-- What normal mode asks beyond alignment: time known, not stale, channel clear within 12, interval elapsed (R107, R108,
R110, R111). -/
def NormalModeAllows (s : State) (rssi nf : Rssi) : Prop :=
  s.utc ≠ 0#32 ∧ age s ≤ s.cfg.maxAge.toNat ∧ rssi.toNat ≤ nf.toNat + 12 ∧ elapsed s ≥ s.cfg.minTxInterval.toNat

/-- A start is due: test mode asks nothing more than alignment (R104). -/
def StartAllowed (s : State) (rssi nf : Rssi) : Prop := s.cfg.testMode = true ∨ NormalModeAllows s rssi nf

/-- The rows of the event words in spec/opcode_table.json: match and mask. -/
def eventRows : List (EventWord × EventWord) :=
  [(0x0100000000#40, 0xFF7C000000#40), (0x0200000000#40, 0xFFFFFF0000#40), (0x0300000000#40, 0xFF00000000#40),
    (0x0400000000#40, 0xFFFFF00000#40), (0x0500000000#40, 0xFFFFFFFFF0#40), (0x0600000000#40, 0xFFFFFFFFFF#40),
    (0x0700000000#40, 0xFFFFFFFF00#40), (0x0800000000#40, 0xFF7FFFFFF0#40), (0x8000000000#40, 0xFF00000000#40)]

/-- The output registers, CHAN and what the chip holds: everything an action mirrors (R24). -/
structure Mirrored where
  txLine    : Bool
  bitPinDir : PinDir
  paBias    : Bool
  chan      : ChanIx
  chip      : Chip

/-- The mirrored part of a state. -/
def mirrored (s : State) : Mirrored := ⟨s.txLine, s.bitPinDir, s.paBias, s.chan, s.chip⟩

/-- What one action says about the mirrored part (R24, R133, R141, R147). -/
def mirror (m : Mirrored) : Action → Mirrored
  | .pinMode d => { m with bitPinDir := d }
  | .pinLevel b => { m with txLine := b }
  | .bias b => { m with paBias := b }
  | .rxStartReceiving ch => { m with chan := ch }
  | .cmd (.setProperty group count start bytes) =>
    { m with chip := { m.chip with
        props := m.chip.props.writeBytes (propKey group start.toNat) (bytes.take count.toNat) } }
  | .cmd (.gpioPinCfg pins) => { m with chip := { m.chip with pins := pins } }
  | .cmd (.startTx _ _ _ _ _) => m
  | .cmd .getChipStatus => m
  | .rxOnBitClock => m
  | .rxTimeSlotStarted _ => m
  | .rxConfigure => m
  | .poolFree => m
  | .blink _ => m
  | .log _ => m

/-- In a list of actions read from the first on, `last` being the level of the last `Bias` before it: at every START_TX the
last `Bias` was `Bias(1)`, at every RxStartReceiving it was `Bias(0)` (R205). -/
def biasOrdered (last : Option Bool) : List Action → Bool
  | [] => true
  | .bias b :: rest => biasOrdered (some b) rest
  | .cmd (.startTx _ _ _ _ _) :: rest => last == some true && biasOrdered last rest
  | .rxStartReceiving _ :: rest => last == some false && biasOrdered last rest
  | _ :: rest => biasOrdered last rest

/-- An outcome with what the chip holds set to `c` in its next state. -/
def withChip (c : Chip) (r : Result) : Result :=
  match r with
  | .next t => .next { t with chip := c }
  | .fault f => .fault f
  | .refused x => .refused x

/-- `Cmd(START_TX, ...)` with a condition code stands in a list of actions. -/
def StartsWithCondition (acts : List Action) (condition : Byte) : Prop :=
  ∃ channel length delay reps, Action.cmd (.startTx channel condition length delay reps) ∈ acts

end Sys2Proof.Machine

open Sys2Proof Sys2Proof.Machine

/-! ### Encoding -/

/-- Words written out from the formats of R62 to R69 decode to the events of the trace lines they stand for, and five reserved
words are rejected by name (the examples of 30_encoding.md section 5 and vectors V100 to V103, V108 to V110). -/
def Obligations.SampleWordsDecode : Prop :=
  decodeWord 0x0100643228#40 = .ok (.tick 100 50 40 false) ∧
  decodeWord 0x0180643228#40 = .ok (.tick 100 50 40 true) ∧
  decodeWord 0x0183FFFFFF#40 = .ok (.tick 1023 255 255 true) ∧
  decodeWord 0x0100050709#40 = .ok (.tick 5 7 9 false) ∧
  decodeWord 0x0200000007#40 = .ok (.slot 7) ∧
  decodeWord 0x03000003E8#40 = .ok (.utc 1000) ∧
  decodeWord 0x0400010022#40 = .ok (.assign 1 34) ∧
  decodeWord 0x0500000001#40 = .ok (.startrx 1) ∧
  decodeWord 0x0600000000#40 = .ok .configure ∧
  decodeWord 0x0700000002#40 = .ok (.setpwr 2) ∧
  decodeWord 0x0880000001#40 = .ok (.cwtest 1 true) ∧
  decodeWord 0x80B0000000#40 = .ok (.data 0xB0000000) ∧
  decodeWord 0x0900000000#40 = .error (.reservedOp 9) ∧
  decodeWord 0x0000000000#40 = .error (.reservedOp 0) ∧
  decodeWord 0x0104640000#40 = .error .nonzeroField ∧
  decodeWord 0x0600000001#40 = .error .nonzeroField ∧
  decodeWord 0x0200010000#40 = .error .nonzeroField

/-- Decoding the wire form of a well-formed instruction gives it back, every operand at every value; the four command
operation bytes are four bytes (log entry 16). -/
def Obligations.DecodeOfEncodeIsIdentity : Prop :=
  ∀ (k : ChipConsts) (i : Instr), k.opcodesDistinct = true → i.wf = true → decode k (encode k i) = .ok i

/-- The other direction: what decodes is well-formed and is the wire form of what it decodes to, so no reserved word, no
non-zero padding field and no frame of a wrong length decodes. -/
def Obligations.EncodeOfDecodeIsIdentity : Prop :=
  ∀ (k : ChipConsts) (x : Wire) (i : Instr), decode k x = .ok i → i.wf = true ∧ encode k i = x

/-- A 40-bit word is an event word exactly when it lies in a row of the opcode table, all other words being reserved (R72);
and no word lies in two rows. -/
def Obligations.WordDecodesIffInOpcodeTable : Prop :=
  (∀ w : EventWord, (∃ i, decodeWord w = .ok i) ↔ ∃ r ∈ eventRows, w &&& r.2 = r.1) ∧
  eventRows.Pairwise fun r q => ∀ w : EventWord, ¬ (w &&& r.2 = r.1 ∧ w &&& q.2 = q.1)

/-- The DATA words of a packet carry bit i at position 31 - (i mod 32) of word i div 32, with zero padding, and the block
assembles the same bits from them (R65). -/
def Obligations.DataWordsCarryPacketBits : Prop :=
  ∀ bits : List Bool, bits.length < 65536 →
    (dataWordsOf bits).length = (bits.length + 31) / 32 ∧
    (∀ i, i < bits.length → ∃ w, (dataWordsOf bits)[i / 32]? = some w ∧ some (w.getLsbD (31 - i % 32)) = bits[i]?) ∧
    paddingZero (BitVec.ofNat 16 bits.length) (dataWordsOf bits) = true ∧
    packetBits (BitVec.ofNat 16 bits.length) (dataWordsOf bits) = bits

/-- The frames of the four chip commands, byte by byte (R74 to R77). -/
def Obligations.CommandFrameLayout : Prop :=
  ∀ (k : ChipConsts) (p : PinMap) (group count start channel condition length delay reps : Byte) (bytes : List Byte),
    encode k (.setProperty group count start bytes) = .frame (k.opcSetProperty :: group :: count :: start :: bytes) ∧
    encode k (.gpioPinCfg p) = .frame [k.opcGpioPinCfg, p.gpio0, p.gpio1, p.gpio2, p.gpio3, p.nirq, p.sdo, p.gencfg] ∧
    encode k (.startTx channel condition length delay reps) =
      .frame [k.opcStartTx, channel, condition, length, delay, reps] ∧
    encode k .getChipStatus = .frame [k.opcGetChipStatus]

/-! ### The step -/

/-- A delivered wire item that decodes is run with itself taken off the port; the encoding of a well-formed instruction is
such an item. -/
def Obligations.StepRunsDecodedInstruction : Prop :=
  (∀ (s : State) (x : Wire) (rest : List Input) (i : Instr),
    s.port = .wire x :: rest → decode s.cfg.chip x = .ok i → step s = exec i { s with port := rest }) ∧
  (∀ (s : State) (i : Instr) (rest : List Input), s.cfg.chip.opcodesDistinct = true → i.wf = true →
    s.port = .wire (encode s.cfg.chip i) :: rest → step s = exec i { s with port := rest })

/-- With nothing delivered and no ASSIGN sequence in progress the block holds its state, and so does the stopped block; an
undecodable item has no step: refused by name, or stopped while FAULT is set. That an empty port is a step at all is the
model's choice (log entry 1). -/
def Obligations.StepIdleAndReserved : Prop :=
  (∀ s : State, s.port = [] → s.arriving = none ∨ s.fault ≠ .none → step s = .next s) ∧
  (∀ (s : State) (x : Wire) (rest : List Input) (e : DecodeError),
    s.port = .wire x :: rest → decode s.cfg.chip x = .error e →
      (s.fault = .none → step s = .refused (.reservedEncoding e)) ∧
      (s.fault ≠ .none → step s = .fault .stopped))

/-- withFetchWord places an event word so that the very next step runs exactly the instruction the decoder reads from it,
with the registers of R10 as they were; a DATA word runs with an ASSIGN sequence in progress, the one there is or one the
model puts there (log entry 17). -/
def Obligations.FetchWordRunsNext : Prop :=
  ∀ (s : State) (w : Nat) (i : Instr), decodeWord (BitVec.ofNat 40 w) = .ok i →
    decodeTableWord 40 w = some i ∧
    ((∀ b, i ≠ .data b) → step (s.withFetchWord 40 w) = exec i s) ∧
    (∀ b, i = .data b → step (s.withFetchWord 40 w) = exec i { s with arriving := headerForData s })

/-! ### UTC, ASSIGN, DATA -/

/-- UTC: the register takes the operand, in both modes, and nothing else changes, no action included. -/
def Obligations.UtcWritesTimeOnly : Prop :=
  ∀ (s : State) (t : Time), Ready s → exec (.utc t) s = .next { s with utc := t }

/-- The header of a packet with at least one bit starts the sequence and changes nothing else (log entry 2); the header of
an empty packet hands it over at once, or takes the fatal assertion if a packet is held; operands out of range are
refused, the channel before the size where both are out of range (the model's choice of name, log entry 19). -/
def Obligations.AssignHeaderOutcomes : Prop :=
  ∀ (s : State) (ch : ChanIx) (size : PktLen), Ready s →
    (s.cfg.nch ≤ ch.toNat → exec (.assign ch size) s = .refused .channelOutOfRange) ∧
    (ch.toNat < s.cfg.nch → s.cfg.pktMaxBits < size.toNat → exec (.assign ch size) s = .refused .sizeOutOfRange) ∧
    (ch.toNat < s.cfg.nch → size.toNat ≤ s.cfg.pktMaxBits → 0 < size.toNat →
      exec (.assign ch size) s = .next { s with arriving := some ⟨ch, size, []⟩ }) ∧
    (ch.toNat < s.cfg.nch → size.toNat = 0 → s.pktValid = false →
      exec (.assign ch size) s =
        .next { s with pktValid := true, pktChan := ch, pktTs := s.utc, pktSize := 0#16, pktCur := 0#16 }) ∧
    (ch.toNat < s.cfg.nch → size.toNat = 0 → s.pktValid = true →
      exec (.assign ch size) s =
        .next { s with fault := .doubleAssign, trace := s.trace ++ [.log .assertDoubleAssign] })

/-- DATA: a word that is not the last is kept and changes nothing else; the last one, with zero padding, hands the packet
over into an empty slot, or takes the fatal assertion if a packet is held; non-zero padding is refused. -/
def Obligations.DataWordOutcomes : Prop :=
  ∀ (s : State) (a : Arriving) (bits : Arg), s.fault = .none → s.arriving = some a →
    (a.got.length + 1 < (a.size.toNat + 31) / 32 →
      exec (.data bits) s = .next { s with arriving := some { a with got := a.got ++ [bits] } }) ∧
    ((a.size.toNat + 31) / 32 ≤ a.got.length + 1 → paddingZero a.size (a.got ++ [bits]) = false →
      exec (.data bits) s = .refused .paddingNotZero) ∧
    ((a.size.toNat + 31) / 32 ≤ a.got.length + 1 → paddingZero a.size (a.got ++ [bits]) = true → s.pktValid = false →
      exec (.data bits) s = .next { s with
        arriving := none
        pktValid := true
        pktChan  := a.ch
        pktTs    := s.utc
        pktSize  := a.size
        pktCur   := 0#16
        pktMem   := packetBits a.size (a.got ++ [bits]) ++ s.pktMem.drop a.size.toNat }) ∧
    ((a.size.toNat + 31) / 32 ≤ a.got.length + 1 → paddingZero a.size (a.got ++ [bits]) = true → s.pktValid = true →
      exec (.data bits) s = .next { s with
        arriving := none, fault := .doubleAssign, trace := s.trace ++ [.log .assertDoubleAssign] })

/-- A whole ASSIGN event, header and DATA words, into an empty slot: the packet's registers and its bits, stamped with UTC;
the cells above the packet and everything else stay. -/
def Obligations.AssignEventHandsPacketOver : Prop :=
  ∀ (s : State) (ch : ChanIx) (bits : List Bool), Ready s → s.pktValid = false → s.cfg.pktMaxBits ≤ 65535 →
    ch.toNat < s.cfg.nch → bits.length ≤ s.cfg.pktMaxBits →
    execAll (assignSequence ch bits) s = .next { s with
      pktValid := true
      pktChan  := ch
      pktTs    := s.utc
      pktSize  := BitVec.ofNat 16 bits.length
      pktCur   := 0#16
      pktMem   := bits ++ s.pktMem.drop bits.length }

/-- A whole ASSIGN event while a packet is held, in either mode: FAULT and one log line, and nothing else changes. -/
def Obligations.DoubleAssignEventFaults : Prop :=
  ∀ (s : State) (ch : ChanIx) (bits : List Bool), Ready s → s.pktValid = true → s.cfg.pktMaxBits ≤ 65535 →
    ch.toNat < s.cfg.nch → bits.length ≤ s.cfg.pktMaxBits →
    execAll (assignSequence ch bits) s =
      .next { s with fault := .doubleAssign, trace := s.trace ++ [.log .assertDoubleAssign] }

/-- Reserved sequences (R72): a DATA word outside an ASSIGN sequence, and any other event inside one. -/
def Obligations.AssignSequenceNotInterleaved : Prop :=
  (∀ (s : State) (bits : Arg), Ready s → exec (.data bits) s = .refused .dataOutsideAssign) ∧
  (∀ (s : State) (i : Instr) (a : Arriving), s.fault = .none → s.arriving = some a → isEvent i = true →
    (∀ b, i ≠ .data b) → exec i s = .refused .insideAssign)

/-- The frame of UTC, ASSIGN and DATA: no output register, no tuning, no mode, no chip property and no pin changes. -/
def Obligations.HostEventsFrame : Prop :=
  ∀ (s t : State) (i : Instr), (∃ x, i = .utc x) ∨ (∃ ch size, i = .assign ch size) ∨ (∃ b, i = .data b) →
    exec i s = .next t →
      t.mode = s.mode ∧ t.lastTx = s.lastTx ∧ t.chan = s.chan ∧ t.bitPos = s.bitPos ∧ t.txLine = s.txLine ∧
      t.bitPinDir = s.bitPinDir ∧ t.paBias = s.paBias ∧ t.cfg = s.cfg ∧ t.chip.pins = s.chip.pins ∧ t.port = s.port ∧
      (∀ address, t.chip.props.read address = s.chip.props.read address) ∧
      (∀ x, i = .utc x → t.pktValid = s.pktValid ∧ t.pktChan = s.pktChan ∧ t.pktTs = s.pktTs ∧ t.pktSize = s.pktSize ∧
        t.pktCur = s.pktCur ∧ t.pktMem = s.pktMem ∧ t.fault = s.fault ∧ t.trace = s.trace) ∧
      ((∀ x, i ≠ .utc x) → t.utc = s.utc)

/-! ### TICK in RECEIVING -/

/-- A receiving tick that is not aligned (no packet, not the CCA bit, another channel) delegates and loads BITPOS, and
nothing else changes. -/
def Obligations.UnalignedTickOnlyDelegates : Prop :=
  ∀ (s : State) (pos : BitPos) (rssi nf : Rssi) (fault : Bool), Ready s → s.mode = .receiving → ¬ Aligned s pos →
    exec (.tick pos rssi nf fault) s = .next { s with bitPos := pos, trace := s.trace ++ [.rxOnBitClock] }

/-- An aligned tick starts the transmission, in normal mode when time is known, the packet is not stale, the channel is clear
within 12 and the interval has elapsed, in test mode unconditionally; with the chip's fault bit clear the state is
TRANSMITTING with the pin out and the bias up, and the actions are those of the start sequence in order. -/
def Obligations.AlignedTickStartsTransmission : Prop :=
  ∀ (s : State) (pos : BitPos) (rssi nf : Rssi) (c : Channel) (e : PowerEntry),
    Ready s → s.mode = .receiving → 4 ≤ s.cfg.statusW → Aligned s pos → StartAllowed s rssi nf →
    s.cfg.channels[s.pktChan.toNat]? = some c → s.cfg.powerTable[s.cfg.txPowerLevel]? = some e →
    exec (.tick pos rssi nf false) s = .next { s with
      mode      := .transmitting
      bitPos    := pos
      bitPinDir := .output
      paBias    := true
      chip      := ⟨withPower s.cfg e s.chip.props, transmitPins s.cfg.chip⟩
      trace     := s.trace ++ [.rxOnBitClock] ++ keyActions s.cfg e ++
        startActions s.cfg c.ordinal s.cfg.chip.txCondNormal }

/-- The same tick with the chip's fault bit set: after the start sequence a log line and the re-entry of reception on the
tuned channel; the mode is RECEIVING, the bias down, the pin an input, and the packet, LASTTX and CHAN are as before. -/
def Obligations.RejectedStartReverts : Prop :=
  ∀ (s : State) (pos : BitPos) (rssi nf : Rssi) (c : Channel) (e : PowerEntry),
    Ready s → s.mode = .receiving → 4 ≤ s.cfg.statusW → Aligned s pos → StartAllowed s rssi nf →
    s.cfg.channels[s.pktChan.toNat]? = some c → s.cfg.powerTable[s.cfg.txPowerLevel]? = some e →
    exec (.tick pos rssi nf true) s = .next { s with
      mode      := .receiving
      bitPos    := pos
      bitPinDir := .input
      paBias    := false
      chip      := ⟨withPower s.cfg e s.chip.props, receivePins s.cfg.chip⟩
      trace     := s.trace ++ [.rxOnBitClock] ++ keyActions s.cfg e ++
        startActions s.cfg c.ordinal s.cfg.chip.txCondNormal ++ [.log (.txStartFailed s.chan)] ++
        enterActions s.cfg s.chan }

/-- In normal mode an aligned tick with time known discards a packet older than MAX_AGE, whatever the channel and the
interval: the packet goes back to the pool, the slot is empty, one log line, and no chip command. -/
def Obligations.StalePacketDiscarded : Prop :=
  ∀ (s : State) (pos : BitPos) (rssi nf : Rssi) (fault : Bool),
    Ready s → s.mode = .receiving → s.cfg.testMode = false → Aligned s pos → s.utc ≠ 0#32 →
    age s > s.cfg.maxAge.toNat →
    exec (.tick pos rssi nf fault) s = .next { s with
      bitPos   := pos
      pktValid := false
      trace    := s.trace ++ [.rxOnBitClock, .poolFree, .log (.staleDiscard (age s) s.pktChan)] }

/-- In normal mode an aligned tick with time unknown, or with a packet that is not stale and a channel that is not clear or
an interval that has not elapsed, remembers nothing beyond BITPOS. -/
def Obligations.GateHoldsBack : Prop :=
  ∀ (s : State) (pos : BitPos) (rssi nf : Rssi) (fault : Bool),
    Ready s → s.mode = .receiving → s.cfg.testMode = false → Aligned s pos →
    (s.utc = 0#32 ∨ (age s ≤ s.cfg.maxAge.toNat ∧
      (rssi.toNat > nf.toNat + 12 ∨ elapsed s < s.cfg.minTxInterval.toNat))) →
    exec (.tick pos rssi nf fault) s = .next { s with bitPos := pos, trace := s.trace ++ [.rxOnBitClock] }

/-- CCA gating over all events: an event that leaves RECEIVING for TRANSMITTING, or that emits START_TX with the packet
condition code (the two condition codes being different), is a TICK at which conditions 1, 2, 3 hold and, in normal mode,
all the others. -/
def Obligations.TransmissionOnlyThroughGate : Prop :=
  ∀ (s t : State) (i : Instr) (acts : List Action), isEvent i = true → exec i s = .next t →
    t.trace = s.trace ++ acts →
    ((s.mode = .receiving ∧ t.mode = .transmitting) ∨
      (StartsWithCondition acts s.cfg.chip.txCondNormal ∧ s.cfg.chip.txCondNormal ≠ s.cfg.chip.txCondCw)) →
    ∃ pos rssi nf fault, i = .tick pos rssi nf fault ∧ s.mode = .receiving ∧ Aligned s pos ∧
      (s.cfg.testMode = true ∨ NormalModeAllows s rssi nf)

/-- Aging: in normal mode no START_TX is emitted at a tick where the held packet is older than MAX_AGE; and where in addition
the tick is an aligned one with time known, in RECEIVING, the packet is discarded at that tick. -/
def Obligations.StalePacketNeverTransmitted : Prop :=
  ∀ (s t : State) (pos : BitPos) (rssi nf : Rssi) (fault : Bool) (acts : List Action),
    s.cfg.testMode = false → age s > s.cfg.maxAge.toNat → exec (.tick pos rssi nf fault) s = .next t →
    t.trace = s.trace ++ acts →
    (∀ condition, ¬ StartsWithCondition acts condition) ∧
    (s.mode = .receiving → Aligned s pos → s.utc ≠ 0#32 →
      t.pktValid = false ∧ t.mode = .receiving ∧ acts.count .poolFree = 1)

/-- Failure recovery: after a TICK whose GET_CHIP_STATUS was answered with the fault bit set, MODE = RECEIVING, PKT_VALID = 1
and PA_BIAS = 0. -/
def Obligations.FaultBitEndsInReceiving : Prop :=
  ∀ (s t : State) (pos : BitPos) (rssi nf : Rssi) (acts : List Action), 4 ≤ s.cfg.statusW →
    exec (.tick pos rssi nf true) s = .next t → t.trace = s.trace ++ acts → Action.cmd .getChipStatus ∈ acts →
    t.mode = .receiving ∧ t.pktValid = true ∧ t.paBias = false

/-- An answer the tick does not consume has no effect: a tick that sends no GET_CHIP_STATUS is the same whatever the fault
answer; a tick that is not aligned is the same whatever rssi, nf and the fault answer; and a tick in TRANSMITTING, in test
mode, with UTC = 0 or with a stale packet is the same whatever rssi and nf. -/
def Obligations.UnconsumedAnswersIgnored : Prop :=
  (∀ (s t : State) (pos : BitPos) (rssi nf : Rssi) (f g : Bool) (acts : List Action),
    exec (.tick pos rssi nf f) s = .next t → t.trace = s.trace ++ acts → Action.cmd .getChipStatus ∉ acts →
    exec (.tick pos rssi nf g) s = .next t) ∧
  (∀ (s : State) (pos : BitPos) (r r' n n' : Rssi) (f f' : Bool), ¬ Aligned s pos →
    exec (.tick pos r n f) s = exec (.tick pos r' n' f') s) ∧
  (∀ (s : State) (pos : BitPos) (r r' n n' : Rssi) (f : Bool),
    s.mode = .transmitting ∨ s.cfg.testMode = true ∨ s.utc = 0#32 ∨ age s > s.cfg.maxAge.toNat →
    exec (.tick pos r n f) s = exec (.tick pos r' n' f) s)

/-! ### TICK in TRANSMITTING -/

/-- Before end-of-frame a transmitting tick drives one packet bit: PKT_CUR, TXLINE and one PinLevel, nothing else. -/
def Obligations.ShiftDrivesOneBit : Prop :=
  ∀ (s : State) (pos : BitPos) (rssi nf : Rssi) (fault b : Bool), Ready s → s.mode = .transmitting →
    s.pktCur ≠ s.pktSize → s.pktMem[s.pktCur.toNat]? = some b →
    exec (.tick pos rssi nf fault) s =
      .next { s with pktCur := s.pktCur + 1#16, txLine := b, trace := s.trace ++ [.pinLevel b] }

/-- The output lines of a shifting tick: the line carries the packet bit at the cursor, with the pin an output, the bias up
and the mode still TRANSMITTING on the packet's channel. -/
def Obligations.ShiftedBitStandsOnLine : Prop :=
  ∀ (s : State) (pos : BitPos) (rssi nf : Rssi) (fault : Bool), s.Inv → Ready s → s.mode = .transmitting →
    s.pktCur ≠ s.pktSize →
    ∃ (t : State) (b : Bool), exec (.tick pos rssi nf fault) s = .next t ∧ s.pktMem[s.pktCur.toNat]? = some b ∧
      t.lines = { txData := some b, txOe := 1#1, paBiasEn := true, nfCh := s.pktChan, mode := 1#1 }

/-- At end-of-frame a transmitting tick completes: LASTTX takes UTC, the mode is RECEIVING on the packet's channel with the
bias down and the pin an input, the slot is empty, and the actions are those of the completion in order. The chip is what the
block's own commands leave in it (log entry 6). -/
def Obligations.EndOfFrameCompletes : Prop :=
  ∀ (s : State) (pos : BitPos) (rssi nf : Rssi) (fault : Bool), Ready s → s.mode = .transmitting →
    s.pktCur = s.pktSize →
    exec (.tick pos rssi nf fault) s = .next { s with
      mode      := .receiving
      lastTx    := s.utc
      chan      := s.pktChan
      pktValid  := false
      bitPinDir := .input
      paBias    := false
      chip      := { s.chip with pins := receivePins s.cfg.chip }
      trace     := s.trace ++ [.blink s.cfg.blinkTxTag] ++ enterActions s.cfg s.pktChan ++
        [.log (.txDone s.pktCur s.pktChan), .poolFree] }

/-- A transmitting tick consumes no operand. -/
def Obligations.TransmittingTickIgnoresFields : Prop :=
  ∀ (s : State) (pos pos' : BitPos) (rssi nf rssi' nf' : Rssi) (fault fault' : Bool), s.mode = .transmitting →
    exec (.tick pos rssi nf fault) s = exec (.tick pos' rssi' nf' fault') s

/-- Bit fidelity: while transmitting, any mixture of TICK, SLOT and UTC events with no more ticks than bits left keeps the
mode and drives exactly the next packet bits, one per tick, in order. -/
def Obligations.TransmissionShiftsBitsInOrder : Prop :=
  ∀ (s : State) (events : List Instr), Ready s → s.mode = .transmitting → s.pktSize.toNat ≤ s.pktMem.length →
    s.pktCur.toNat + events.countP isTick ≤ s.pktSize.toNat → events.all isNotification = true →
    ∃ t, execAll events s = .next t ∧ t.mode = .transmitting ∧ t.pktCur.toNat = s.pktCur.toNat + events.countP isTick ∧
      t.pktMem = s.pktMem ∧ t.pktSize = s.pktSize ∧ t.pktValid = s.pktValid ∧ t.lastTx = s.lastTx ∧
      pinLevels t.trace =
        pinLevels s.trace ++ (s.pktMem.drop s.pktCur.toNat).take (events.countP isTick)

/-- Length of a transmission: from an aligned start of a packet of N bits that the chip accepts, N + 1 further ticks with any
fields and no other event drive exactly the packet's N bits and end it: N + 2 ticks in all, RECEIVING, the slot empty,
LASTTX = UTC. -/
def Obligations.TransmissionTakesSizePlusTwoTicks : Prop :=
  ∀ (s : State) (pos : BitPos) (rssi nf : Rssi) (events : List Instr),
    Ready s → s.Inv → s.mode = .receiving → Aligned s pos → StartAllowed s rssi nf →
    events.length = s.pktSize.toNat + 1 → events.all isTick = true →
    ∃ t, execAll (.tick pos rssi nf false :: events) s = .next t ∧ t.mode = .receiving ∧ t.pktValid = false ∧
      t.paBias = false ∧ t.bitPinDir = .input ∧ t.lastTx = s.utc ∧ t.chan = s.chan ∧
      pinLevels t.trace = pinLevels s.trace ++ s.pktMem.take s.pktSize.toNat

/-- The frame of TICK: UTC, the packet's channel, stamp, size and bits, FAULT and the configuration never change; in
TRANSMITTING neither BITPOS nor any chip property changes, in RECEIVING neither LASTTX nor TXLINE nor PKT_CUR nor CHAN, and
of the chip's properties only the three power bytes. -/
def Obligations.TickFrame : Prop :=
  ∀ (s t : State) (pos : BitPos) (rssi nf : Rssi) (fault : Bool), exec (.tick pos rssi nf fault) s = .next t →
    t.utc = s.utc ∧ t.pktChan = s.pktChan ∧ t.pktTs = s.pktTs ∧ t.pktSize = s.pktSize ∧ t.pktMem = s.pktMem ∧
    t.fault = s.fault ∧ t.cfg = s.cfg ∧ t.arriving = s.arriving ∧ t.port = s.port ∧
    (s.mode = .transmitting → t.bitPos = s.bitPos ∧
      ∀ address, t.chip.props.read address = s.chip.props.read address) ∧
    (s.mode = .receiving → t.bitPos = pos ∧ t.lastTx = s.lastTx ∧ t.txLine = s.txLine ∧ t.pktCur = s.pktCur ∧
      t.chan = s.chan ∧
      ∀ address, address < powerAddress s.cfg ∨ powerAddress s.cfg + 3 ≤ address →
        t.chip.props.read address = s.chip.props.read address)

/-! ### SLOT and STARTRX -/

/-- SLOT delegates in both modes; in RECEIVING with a packet held for another channel it re-enters reception on the packet's
channel, otherwise nothing else changes. The chip is what the block's own commands leave in it (log entry 6). -/
def Obligations.SlotRetunesToPacketChannel : Prop :=
  ∀ (s : State) (slot : SlotNo), Ready s →
    (s.mode = .receiving ∧ s.pktValid = true ∧ s.pktChan ≠ s.chan →
      exec (.slot slot) s = .next { s with
        paBias    := false
        bitPinDir := .input
        chan      := s.pktChan
        chip      := { s.chip with pins := receivePins s.cfg.chip }
        trace     := s.trace ++ [.rxTimeSlotStarted slot] ++ enterActions s.cfg s.pktChan }) ∧
    (¬ (s.mode = .receiving ∧ s.pktValid = true ∧ s.pktChan ≠ s.chan) →
      exec (.slot slot) s = .next { s with trace := s.trace ++ [.rxTimeSlotStarted slot] })

/-- STARTRX enters reception on its channel, also on the tuned one; it is refused for a channel outside the table and in
TRANSMITTING, the channel first where both apply (the model's choice of name, log entry 19). The chip is what the block's own
commands leave in it (log entry 6). -/
def Obligations.StartrxEntersReceive : Prop :=
  ∀ (s : State) (ch : ChanIx), Ready s →
    (ch.toNat < s.cfg.nch → s.mode = .receiving →
      exec (.startrx ch) s = .next { s with
        paBias    := false
        bitPinDir := .input
        chan      := ch
        chip      := { s.chip with pins := receivePins s.cfg.chip }
        trace     := s.trace ++ enterActions s.cfg ch }) ∧
    (s.cfg.nch ≤ ch.toNat → exec (.startrx ch) s = .refused .channelOutOfRange) ∧
    (ch.toNat < s.cfg.nch → s.mode = .transmitting → exec (.startrx ch) s = .refused .whileTransmitting)

/-- The frame of SLOT and STARTRX: only PA_BIAS, BITPIN_DIR, CHAN, the chip's pin functions and the actions can differ; every
chip property reads as before. -/
def Obligations.SlotEventsFrame : Prop :=
  ∀ (s t : State) (i : Instr), (∃ n, i = .slot n) ∨ (∃ ch, i = .startrx ch) → exec i s = .next t →
    t = { s with paBias := t.paBias, bitPinDir := t.bitPinDir, chan := t.chan, chip := t.chip, trace := t.trace } ∧
    (∀ address, t.chip.props.read address = s.chip.props.read address)

/-! ### CONFIGURE, SETPWR, CWTEST -/

/-- CONFIGURE in RECEIVING: the delegation, the modulation property, and under BT04 the nine filter coefficients; no register
changes; refused in TRANSMITTING. The chip is what the block's own commands leave in it: what the receive path writes at
RxConfigure the spec leaves open (log entry 6). -/
def Obligations.ConfigureSendsModulation : Prop :=
  ∀ s : State, Ready s →
    (s.mode = .receiving → s.cfg.filterShaping = .off →
      exec .configure s = .next { s with
        chip  := { s.chip with
          props := s.chip.props.writeBytes (propKey s.cfg.chip.modGroup s.cfg.chip.modStart.toNat)
            [s.cfg.chip.modTypeValue] }
        trace := s.trace ++ [.rxConfigure,
          .cmd (.setProperty s.cfg.chip.modGroup 1#8 s.cfg.chip.modStart [s.cfg.chip.modTypeValue])] }) ∧
    (s.mode = .receiving → s.cfg.filterShaping = .bt04 →
      exec .configure s = .next { s with
        chip  := { s.chip with
          props := (s.chip.props.writeBytes (propKey s.cfg.chip.modGroup s.cfg.chip.modStart.toNat)
            [s.cfg.chip.modTypeValue]).writeBytes (propKey s.cfg.chip.filtGroup s.cfg.chip.filtStart.toNat)
            s.cfg.chip.bt04Coeff.toList }
        trace := s.trace ++ [.rxConfigure,
          .cmd (.setProperty s.cfg.chip.modGroup 1#8 s.cfg.chip.modStart [s.cfg.chip.modTypeValue]),
          .cmd (.setProperty s.cfg.chip.filtGroup 9#8 s.cfg.chip.filtStart s.cfg.chip.bt04Coeff.toList)] }) ∧
    (s.mode = .transmitting → exec .configure s = .refused .whileTransmitting)

/-- SETPWR in RECEIVING sends the power entry of its level and changes no register; refused for a level outside the table and
in TRANSMITTING, the level first where both apply (the model's choice of name, log entry 19). -/
def Obligations.SetpwrSendsPowerEntry : Prop :=
  ∀ (s : State) (level : Byte), Ready s →
    (∀ e, s.mode = .receiving → s.cfg.powerTable[level.toNat]? = some e →
      exec (.setpwr level) s = .next { s with
        chip  := { s.chip with props := withPower s.cfg e s.chip.props }
        trace := s.trace ++
          [.cmd (.setProperty s.cfg.chip.paGroup 3#8 s.cfg.chip.paStart [e.mode, e.level, e.biasDuty])] }) ∧
    (s.cfg.npwr ≤ level.toNat → exec (.setpwr level) s = .refused .levelOutOfRange) ∧
    (level.toNat < s.cfg.npwr → s.mode = .transmitting → exec (.setpwr level) s = .refused .whileTransmitting)

/-- CWTEST in RECEIVING with no packet held: reception entered on the channel, the transmit set-up, START_TX with the carrier
condition code, the status, and a log line with the fault bit; CHAN, BITPIN_DIR and PA_BIAS change and MODE does not. It is
refused for a channel outside the table, in TRANSMITTING, and while a packet is held, the first of these where several apply
(the model's choice of name, log entry 19). The chip is what the block's own commands leave in it (log entry 6). -/
def Obligations.CwtestRaisesCarrier : Prop :=
  ∀ (s : State) (ch : ChanIx) (fault : Bool), Ready s →
    (∀ (c : Channel) (e : PowerEntry), s.mode = .receiving → 4 ≤ s.cfg.statusW → s.pktValid = false →
      s.cfg.channels[ch.toNat]? = some c → s.cfg.powerTable[s.cfg.txPowerLevel]? = some e →
      exec (.cwtest ch fault) s = .next { s with
        chan      := ch
        bitPinDir := .output
        paBias    := true
        chip      := ⟨withPower s.cfg e s.chip.props, transmitPins s.cfg.chip⟩
        trace     := s.trace ++ enterActions s.cfg ch ++ keyActions s.cfg e ++
          startActions s.cfg c.ordinal s.cfg.chip.txCondCw ++ [.log (.cwStatus ch fault)] }) ∧
    (s.cfg.nch ≤ ch.toNat → exec (.cwtest ch fault) s = .refused .channelOutOfRange) ∧
    (ch.toNat < s.cfg.nch → s.mode = .transmitting → exec (.cwtest ch fault) s = .refused .whileTransmitting) ∧
    (ch.toNat < s.cfg.nch → s.mode = .receiving → s.pktValid = true →
      exec (.cwtest ch fault) s = .refused .packetHeld)

/-- The frame of CONFIGURE and SETPWR: no register changes and no pin function; of the chip's properties only the stored
bytes, at the addresses the commands give. -/
def Obligations.ChipSetupFrame : Prop :=
  (∀ s t : State, exec .configure s = .next t →
    t = { s with chip := t.chip, trace := t.trace } ∧ t.chip.pins = s.chip.pins ∧
    ∀ address, address ≠ propKey s.cfg.chip.modGroup s.cfg.chip.modStart.toNat →
      (s.cfg.filterShaping = .bt04 → address < propKey s.cfg.chip.filtGroup s.cfg.chip.filtStart.toNat ∨
        propKey s.cfg.chip.filtGroup s.cfg.chip.filtStart.toNat + 9 ≤ address) →
      t.chip.props.read address = s.chip.props.read address) ∧
  (∀ (s t : State) (level : Byte), exec (.setpwr level) s = .next t →
    t = { s with chip := t.chip, trace := t.trace } ∧ t.chip.pins = s.chip.pins ∧
    ∀ address, address < powerAddress s.cfg ∨ powerAddress s.cfg + 3 ≤ address →
      t.chip.props.read address = s.chip.props.read address)

/-- The frame of CWTEST: only CHAN, BITPIN_DIR, PA_BIAS, the chip and the actions can differ, and of the chip's properties
only the three power bytes. -/
def Obligations.CwtestFrame : Prop :=
  ∀ (s t : State) (ch : ChanIx) (fault : Bool), exec (.cwtest ch fault) s = .next t →
    t = { s with chan := t.chan, bitPinDir := t.bitPinDir, paBias := t.paBias, chip := t.chip, trace := t.trace } ∧
    ∀ address, address < powerAddress s.cfg ∨ powerAddress s.cfg + 3 ≤ address →
      t.chip.props.read address = s.chip.props.read address

/-! ### The chip commands -/

/-- SET_PROPERTY: `count` consecutive properties of the group from `start` up take the data bytes in order, every other
address reads as before, and no register and no pin function changes. An index beyond 255 is not wrapped (log entry 7), and a
command on its own, in every mode, is the model's choice (log entries 8 and 18). -/
def Obligations.SetPropertyWritesProperties : Prop :=
  ∀ (s : State) (group count start : Byte) (bytes : List Byte), s.fault = .none → bytes.length = count.toNat →
    ∃ t, exec (.setProperty group count start bytes) s = .next t ∧
      t = { s with chip := t.chip, trace := s.trace ++ [.cmd (.setProperty group count start bytes)] } ∧
      t.chip.pins = s.chip.pins ∧
      (∀ i, i < count.toNat → t.property group (start.toNat + i) = bytes[i]?) ∧
      (∀ g index, index < 512 → g ≠ group ∨ index < start.toNat ∨ start.toNat + count.toNat ≤ index →
        t.property g index = s.property g index) ∧
      (∀ address, address < propKey group start.toNat ∨ propKey group start.toNat + count.toNat ≤ address →
        t.chip.props.read address = s.chip.props.read address)

/-- GPIO_PIN_CFG: every pin takes the function in its field and the general-config byte is applied; no register and no
property changes. A command on its own, in every mode, is the model's choice (log entries 8 and 18). -/
def Obligations.GpioPinCfgSetsPins : Prop :=
  ∀ (s : State) (p : PinMap), s.fault = .none →
    exec (.gpioPinCfg p) s =
      .next { s with chip := { s.chip with pins := p }, trace := s.trace ++ [.cmd (.gpioPinCfg p)] }

/-- START_TX and GET_CHIP_STATUS on their own: one action each, no register, property or pin function changes. A command on its
own, in every mode, is the model's choice (log entries 8, 18 and 20). -/
def Obligations.StartTxAndStatusEmitOneAction : Prop :=
  ∀ (s : State) (channel condition length delay reps : Byte), s.fault = .none →
    exec (.startTx channel condition length delay reps) s =
      .next { s with trace := s.trace ++ [.cmd (.startTx channel condition length delay reps)] } ∧
    exec .getChipStatus s = .next { s with trace := s.trace ++ [.cmd .getChipStatus] }

/-! ### Failures, reset, authority -/

/-- The stopped block: while FAULT is not NONE no instruction has a step, and no delivered word or frame has one. That the
outcome is a fault, for undecodable items too, and that lone chip commands share it, are the model's choices (log entries 11
and 18). -/
def Obligations.StoppedBlockHasNoStep : Prop :=
  ∀ s : State, s.fault ≠ .none →
    (∀ i, exec i s = .fault .stopped) ∧
    (∀ x rest, s.port = .wire x :: rest → step s = .fault .stopped)

/-- Reset, from every state with no ASSIGN sequence in progress and from the stopped one: the values R34 gives, no action, the
chip and the configuration as they were; the registers R34 leaves unspecified take the draws, CHAN below NCH, every cell of
PKTMEM its drawn bit; no sequence is in progress. The reset item, its draws and the port it keeps are the model's choice
(log entry 12), and so is its refusal inside a sequence (log entry 2, `TooFewDataWordsRefused`). -/
def Obligations.ResetInputResets : Prop :=
  ∀ (s : State) (d : ResetDraw) (rest : List Input), s.port = .rst d :: rest → 1 ≤ s.cfg.nch →
    s.arriving = none ∨ s.fault ≠ .none →
    ∃ t, step s = .next t ∧ t.mode = .receiving ∧ t.utc = 0#32 ∧ t.lastTx = 0#32 ∧ t.pktValid = false ∧
      t.fault = .none ∧ t.bitPinDir = .input ∧ t.paBias = false ∧ t.chan.toNat < t.cfg.nch ∧
      (d.chan.toNat < s.cfg.nch → t.chan = d.chan) ∧ t.bitPos = d.bitPos ∧ t.txLine = d.txLine ∧
      t.pktChan = d.pktChan ∧ t.pktTs = d.pktTs ∧ t.pktSize = d.pktSize ∧ t.pktCur = d.pktCur ∧
      t.pktMem.length = s.cfg.pktMaxBits ∧ (∀ i, i < s.cfg.pktMaxBits → t.pktMem[i]? = some (d.pktMem.getD i false)) ∧
      t.arriving = none ∧ t.cfg = s.cfg ∧ t.chip = s.chip ∧ t.trace = s.trace ∧ t.port = rest

/-- The reset state has the values the spec states, and no register's value that the spec leaves open is claimed. -/
def Obligations.ResetStateValues : Prop :=
  State.reset.mode = .receiving ∧ State.reset.utc = 0#32 ∧ State.reset.lastTx = 0#32 ∧ State.reset.pktValid = false ∧
  State.reset.fault = .none ∧ State.reset.bitPinDir = .input ∧ State.reset.paBias = false ∧ State.reset.trace = [] ∧
  State.reset.chip.props = []

/-- The invariant holds right after reset, for every configuration in range, every draw and every pin function the chip may
hold, and so at State.reset. -/
def Obligations.InvariantAtReset : Prop :=
  (∀ (c : Cfg) (d : ResetDraw) (p : PinMap), c.wf = true → (State.resetWith c d p).Inv) ∧ State.reset.Inv

/-- Every step keeps the invariant, from every state that has it, whatever is delivered. -/
def Obligations.StepKeepsInvariant : Prop :=
  ∀ s t : State, s.Inv → step s = .next t → t.Inv

/-- An instruction has a step exactly when FAULT is NONE and none of the refusals of R178 applies, in every state with the
invariant: ordinary data ends no run. -/
def Obligations.InstructionRunsIffAdmitted : Prop :=
  ∀ (s : State) (i : Instr), s.Inv → ((∃ t, exec i s = .next t) ↔ admitted i s = true)

/-- Bias only while transmitting, outside the carrier test: every step of an instruction other than CWTEST keeps it, and
after a STARTRX it holds again. -/
def Obligations.BiasOnlyInTransmitKept : Prop :=
  (∀ (s t : State) (i : Instr), s.Inv → BiasOnlyInTransmit s → (∀ ch f, i ≠ .cwtest ch f) → exec i s = .next t →
    BiasOnlyInTransmit t) ∧
  (∀ (s t : State) (ch : ChanIx), exec (.startrx ch) s = .next t → BiasOnlyInTransmit t)

/-- LASTTX is written only by the completion of a transmission, with the UTC of that event. -/
def Obligations.LastTxWrittenOnlyAtCompletion : Prop :=
  ∀ (s t : State) (i : Instr), exec i s = .next t →
    (t.lastTx = s.lastTx ∨
      (isTick i = true ∧ s.mode = .transmitting ∧ s.pktCur = s.pktSize ∧ t.lastTx = s.utc)) ∧
    (isTick i = true → s.mode = .transmitting → s.pktCur = s.pktSize → t.lastTx = s.utc)

/-- A held packet is never overwritten: while it stays held, no instruction changes its channel, stamp, size or bits, and its
cursor moves only by one, at a shifting tick. -/
def Obligations.HeldPacketNeverOverwritten : Prop :=
  ∀ (s t : State) (i : Instr), s.Inv → s.pktValid = true → exec i s = .next t →
    t.pktChan = s.pktChan ∧ t.pktTs = s.pktTs ∧ t.pktSize = s.pktSize ∧ t.pktMem = s.pktMem ∧
    (t.pktCur = s.pktCur ∨ (s.mode = .transmitting ∧ isTick i = true ∧ t.pktCur.toNat = s.pktCur.toNat + 1))

/-- A held packet leaves the slot only by completion or by age discard, and each emits exactly one PoolFree; an instruction
that does not release it emits none. No instruction that releases it asks for the chip status, so a failed start does not. -/
def Obligations.PacketReleasedTwoWays : Prop :=
  ∀ (s t : State) (i : Instr) (acts : List Action), exec i s = .next t → t.trace = s.trace ++ acts →
    (s.pktValid = true → t.pktValid = false →
      isTick i = true ∧ acts.count .poolFree = 1 ∧ Action.cmd .getChipStatus ∉ acts ∧
      ((s.mode = .transmitting ∧ s.pktCur = s.pktSize ∧ t.lastTx = s.utc) ∨
        (s.mode = .receiving ∧ s.cfg.testMode = false ∧ s.utc ≠ 0#32 ∧ age s > s.cfg.maxAge.toNat))) ∧
    (s.pktValid = true → t.pktValid = true → acts.count .poolFree = 0)

/-- No abort: TRANSMITTING is left only by a TICK that finds end-of-frame. -/
def Obligations.TransmissionLeftOnlyAtEndOfFrame : Prop :=
  ∀ (s t : State) (i : Instr), s.mode = .transmitting → exec i s = .next t → t.mode = .receiving →
    isTick i = true ∧ s.pktCur = s.pktSize ∧ t.pktValid = false

/-- CHAN is written by EnterReceive only: an instruction that changes CHAN emits RxStartReceiving of the new channel, and no
instruction but SLOT, STARTRX, CWTEST and the completing TICK changes it. -/
def Obligations.ChanWrittenOnlyByEnterReceive : Prop :=
  ∀ (s t : State) (i : Instr) (acts : List Action), exec i s = .next t → t.trace = s.trace ++ acts → t.chan ≠ s.chan →
    Action.rxStartReceiving t.chan ∈ acts ∧
    ((∃ n, i = .slot n) ∨ (∃ ch, i = .startrx ch) ∨ (∃ ch f, i = .cwtest ch f) ∨
      (isTick i = true ∧ s.mode = .transmitting ∧ s.pktCur = s.pktSize))

/-- Bias-enable ordering inside every event: a START_TX comes after a Bias(1) of the same event with no Bias(0) between them,
and an RxStartReceiving after a Bias(0) with no Bias(1) between them. -/
def Obligations.BiasOrderedInsideEvent : Prop :=
  ∀ (s t : State) (i : Instr) (acts : List Action), isEvent i = true → exec i s = .next t →
    t.trace = s.trace ++ acts → biasOrdered none acts = true

/-- The actions are the whole truth about the outputs: every instruction only appends actions, and the output registers,
CHAN, the chip's properties and its pin functions are what the appended actions, taken in order, make of them. -/
def Obligations.OutputsAreReplayOfActions : Prop :=
  ∀ (s t : State) (i : Instr), exec i s = .next t →
    ∃ acts, t.trace = s.trace ++ acts ∧ mirrored t = acts.foldl mirror (mirrored s)

/-- The configuration never changes: no step writes it. -/
def Obligations.ConfigurationNeverWritten : Prop :=
  ∀ s t : State, step s = .next t → t.cfg = s.cfg

/-- The block never reads back what the chip commands leave in the chip: two states that differ only there step alike. -/
def Obligations.ChipContentsNeverRead : Prop :=
  ∀ (s : State) (i : Instr) (c c' : Chip), withChip c (exec i { s with chip := c' }) = withChip c (exec i s)

/-! ### Incomplete sequences -/

/-- Too few DATA words (R72): a header and fewer DATA words than it announces leave the registers as they were, and the
sequence is refused whatever ends it, the end of the input (vector V107), the reset input or another event; no run that ends
there has ended well (R217). The taking word by word and the refusal of a reset there are the model's choice (log entry 2). -/
def Obligations.TooFewDataWordsRefused : Prop :=
  ∀ (s : State) (ch : ChanIx) (size : PktLen) (got : List Arg), Ready s → ch.toNat < s.cfg.nch →
    size.toNat ≤ s.cfg.pktMaxBits → got.length < (size.toNat + 31) / 32 →
    ∃ t, execAll (.assign ch size :: got.map .data) s = .next t ∧ t = { s with arriving := some ⟨ch, size, got⟩ } ∧
      endedWell (.next t) = false ∧ (t.port = [] → step t = .refused .tooFewDataWords) ∧
      (∀ d rest, t.port = .rst d :: rest → step t = .refused .tooFewDataWords) ∧
      (∀ x rest i, t.port = .wire x :: rest → decode t.cfg.chip x = .ok i → isEvent i = true → (∀ b, i ≠ .data b) →
        step t = .refused .insideAssign)
end

