-- ==== Sys2Proof/Laws/Memory.lean ====
section
/-! SUPPORT. The chip property space: a write is read back, leaves every other address alone, and keeps the canonical
form. -/

namespace Sys2Proof.Machine

@[simp] theorem Memory.read_nil (k : Nat) : Memory.read [] k = none := rfl

theorem Memory.read_write_same (m : Memory) (k : Nat) (v : Byte) : (m.write k v).read k = some v := by
  induction m with
  | nil => simp [Memory.write, Memory.read]
  | cons x rest ih =>
    obtain ⟨a, b⟩ := x
    unfold Memory.write
    split
    · simp [Memory.read]
    · split
      · simp [Memory.read]
      · rename_i h1 h2
        have : a ≠ k := fun h => h2 h.symm
        simp [Memory.read, this, ih]

theorem Memory.read_write_other (m : Memory) {k j : Nat} (v : Byte) (h : j ≠ k) :
    (m.write k v).read j = m.read j := by
  have hk : ¬ k = j := fun e => h e.symm
  induction m with
  | nil => simp [Memory.write, Memory.read, hk]
  | cons x rest ih =>
    obtain ⟨a, b⟩ := x
    unfold Memory.write
    split
    · simp [Memory.read, hk]
    · split
      · rename_i h1 h2
        subst h2
        simp [Memory.read, hk]
      · by_cases ha : a = j <;> simp [Memory.read, ha, ih]

theorem Memory.mem_write {m : Memory} {k : Nat} {v : Byte} {x : Host.Cell} (h : x ∈ m.write k v) :
    x.1 = k ∨ x ∈ m := by
  induction m with
  | nil => simp [Memory.write] at h; simp [h]
  | cons y rest ih =>
    obtain ⟨a, b⟩ := y
    unfold Memory.write at h
    split at h
    · simp only [List.mem_cons] at h ⊢
      rcases h with h | h | h
      · exact .inl (by simp [h])
      · exact .inr (.inl h)
      · exact .inr (.inr h)
    · split at h
      · simp only [List.mem_cons] at h ⊢
        rcases h with h | h
        · exact .inl (by simp [h])
        · exact .inr (.inr h)
      · simp only [List.mem_cons] at h ⊢
        rcases h with h | h
        · exact .inr (.inl h)
        · exact (ih h).imp id .inr

theorem Memory.write_wf {m : Memory} (k : Nat) (v : Byte) (h : m.wf) : (m.write k v).wf := by
  induction m with
  | nil => simp [Memory.write, Memory.wf]
  | cons x rest ih =>
    obtain ⟨a, b⟩ := x
    have h' := List.pairwise_cons.mp h
    unfold Memory.write
    split
    · rename_i hlt
      refine List.pairwise_cons.mpr ⟨?_, h⟩
      intro y hy
      rcases List.mem_cons.mp hy with rfl | hy
      · exact hlt
      · exact Nat.lt_trans hlt (h'.1 y hy)
    · split
      · rename_i _ heq
        subst heq
        exact List.pairwise_cons.mpr ⟨h'.1, h'.2⟩
      · refine List.pairwise_cons.mpr ⟨?_, ih h'.2⟩
        intro y hy
        rcases Memory.mem_write hy with hk | hk
        · simp only [hk]; omega
        · exact h'.1 y hk

theorem Memory.writeBytes_wf {m : Memory} (k : Nat) (bs : List Byte) (h : m.wf) : (m.writeBytes k bs).wf := by
  induction bs generalizing m k with
  | nil => exact h
  | cons b bs ih => exact ih (k + 1) (Memory.write_wf k b h)

/-- A write of consecutive bytes leaves every address outside them alone. -/
theorem Memory.read_writeBytes_outside (m : Memory) (k : Nat) (bs : List Byte) (j : Nat)
    (h : j < k ∨ k + bs.length ≤ j) : (m.writeBytes k bs).read j = m.read j := by
  induction bs generalizing m k with
  | nil => rfl
  | cons b bs ih =>
    simp only [List.length_cons] at h
    rw [Memory.writeBytes, ih _ _ (by omega), Memory.read_write_other _ _ (by omega)]

/-- A write of consecutive bytes is read back byte by byte. -/
theorem Memory.read_writeBytes_inside (m : Memory) (k : Nat) (bs : List Byte) (i : Nat) (h : i < bs.length) :
    (m.writeBytes k bs).read (k + i) = bs[i]? := by
  induction bs generalizing m k i with
  | nil => simp at h
  | cons b bs ih =>
    rw [Memory.writeBytes]
    cases i with
    | zero => simpa using (Memory.read_writeBytes_outside _ _ bs k (by omega)).trans (Memory.read_write_same m k b)
    | succ i =>
      have := ih (m.write k b) (k + 1) i (by simpa using h)
      simpa [Nat.add_assoc, Nat.add_comm 1 i] using this

/-- Different properties have different addresses, for indices below 512. -/
theorem propKey_inj {g g' : Byte} {i i' : Nat} (hi : i < 512) (hi' : i' < 512) (h : propKey g i = propKey g' i') :
    g = g' ∧ i = i' := by
  unfold propKey at h
  have : g.toNat = g'.toNat := by omega
  exact ⟨BitVec.eq_of_toNat_eq this, by omega⟩

theorem Memory.reset_wf : State.reset.chip.props.wf := by simp [State.reset, State.resetWith, Memory.wf]

end Sys2Proof.Machine
end

