-- ==== Sys2Proof/Laws/State.lean ====
section
/-! SUPPORT. One lemma per field per update: what each primitive operation of Machine/Ops.lean writes and what it keeps. -/

namespace Sys2Proof.Machine

@[simp] theorem State.emit_mode (s : State) (a : Action) : (s.emit a).mode = s.mode := rfl
@[simp] theorem State.emit_utc (s : State) (a : Action) : (s.emit a).utc = s.utc := rfl
@[simp] theorem State.emit_lastTx (s : State) (a : Action) : (s.emit a).lastTx = s.lastTx := rfl
@[simp] theorem State.emit_chan (s : State) (a : Action) : (s.emit a).chan = s.chan := rfl
@[simp] theorem State.emit_bitPos (s : State) (a : Action) : (s.emit a).bitPos = s.bitPos := rfl
@[simp] theorem State.emit_pktValid (s : State) (a : Action) : (s.emit a).pktValid = s.pktValid := rfl
@[simp] theorem State.emit_pktChan (s : State) (a : Action) : (s.emit a).pktChan = s.pktChan := rfl
@[simp] theorem State.emit_pktTs (s : State) (a : Action) : (s.emit a).pktTs = s.pktTs := rfl
@[simp] theorem State.emit_pktSize (s : State) (a : Action) : (s.emit a).pktSize = s.pktSize := rfl
@[simp] theorem State.emit_pktCur (s : State) (a : Action) : (s.emit a).pktCur = s.pktCur := rfl
@[simp] theorem State.emit_pktMem (s : State) (a : Action) : (s.emit a).pktMem = s.pktMem := rfl
@[simp] theorem State.emit_txLine (s : State) (a : Action) : (s.emit a).txLine = s.txLine := rfl
@[simp] theorem State.emit_bitPinDir (s : State) (a : Action) : (s.emit a).bitPinDir = s.bitPinDir := rfl
@[simp] theorem State.emit_paBias (s : State) (a : Action) : (s.emit a).paBias = s.paBias := rfl
@[simp] theorem State.emit_fault (s : State) (a : Action) : (s.emit a).fault = s.fault := rfl
@[simp] theorem State.emit_cfg (s : State) (a : Action) : (s.emit a).cfg = s.cfg := rfl
@[simp] theorem State.emit_chip (s : State) (a : Action) : (s.emit a).chip = s.chip := rfl
@[simp] theorem State.emit_arriving (s : State) (a : Action) : (s.emit a).arriving = s.arriving := rfl
@[simp] theorem State.emit_port (s : State) (a : Action) : (s.emit a).port = s.port := rfl
@[simp] theorem State.emit_trace (s : State) (a : Action) : (s.emit a).trace = s.trace ++ [a] := rfl

@[simp] theorem setPinDir_mode (d : PinDir) (s : State) : (setPinDir d s).mode = s.mode := rfl
@[simp] theorem setPinDir_utc (d : PinDir) (s : State) : (setPinDir d s).utc = s.utc := rfl
@[simp] theorem setPinDir_lastTx (d : PinDir) (s : State) : (setPinDir d s).lastTx = s.lastTx := rfl
@[simp] theorem setPinDir_chan (d : PinDir) (s : State) : (setPinDir d s).chan = s.chan := rfl
@[simp] theorem setPinDir_bitPos (d : PinDir) (s : State) : (setPinDir d s).bitPos = s.bitPos := rfl
@[simp] theorem setPinDir_pktValid (d : PinDir) (s : State) : (setPinDir d s).pktValid = s.pktValid := rfl
@[simp] theorem setPinDir_pktChan (d : PinDir) (s : State) : (setPinDir d s).pktChan = s.pktChan := rfl
@[simp] theorem setPinDir_pktTs (d : PinDir) (s : State) : (setPinDir d s).pktTs = s.pktTs := rfl
@[simp] theorem setPinDir_pktSize (d : PinDir) (s : State) : (setPinDir d s).pktSize = s.pktSize := rfl
@[simp] theorem setPinDir_pktCur (d : PinDir) (s : State) : (setPinDir d s).pktCur = s.pktCur := rfl
@[simp] theorem setPinDir_pktMem (d : PinDir) (s : State) : (setPinDir d s).pktMem = s.pktMem := rfl
@[simp] theorem setPinDir_txLine (d : PinDir) (s : State) : (setPinDir d s).txLine = s.txLine := rfl
@[simp] theorem setPinDir_bitPinDir (d : PinDir) (s : State) : (setPinDir d s).bitPinDir = d := rfl
@[simp] theorem setPinDir_paBias (d : PinDir) (s : State) : (setPinDir d s).paBias = s.paBias := rfl
@[simp] theorem setPinDir_fault (d : PinDir) (s : State) : (setPinDir d s).fault = s.fault := rfl
@[simp] theorem setPinDir_cfg (d : PinDir) (s : State) : (setPinDir d s).cfg = s.cfg := rfl
@[simp] theorem setPinDir_chip (d : PinDir) (s : State) : (setPinDir d s).chip = s.chip := rfl
@[simp] theorem setPinDir_arriving (d : PinDir) (s : State) : (setPinDir d s).arriving = s.arriving := rfl
@[simp] theorem setPinDir_port (d : PinDir) (s : State) : (setPinDir d s).port = s.port := rfl
@[simp] theorem setPinDir_trace (d : PinDir) (s : State) : (setPinDir d s).trace = s.trace ++ [.pinMode d] := rfl

@[simp] theorem setBias_mode (b : Bool) (s : State) : (setBias b s).mode = s.mode := rfl
@[simp] theorem setBias_utc (b : Bool) (s : State) : (setBias b s).utc = s.utc := rfl
@[simp] theorem setBias_lastTx (b : Bool) (s : State) : (setBias b s).lastTx = s.lastTx := rfl
@[simp] theorem setBias_chan (b : Bool) (s : State) : (setBias b s).chan = s.chan := rfl
@[simp] theorem setBias_bitPos (b : Bool) (s : State) : (setBias b s).bitPos = s.bitPos := rfl
@[simp] theorem setBias_pktValid (b : Bool) (s : State) : (setBias b s).pktValid = s.pktValid := rfl
@[simp] theorem setBias_pktChan (b : Bool) (s : State) : (setBias b s).pktChan = s.pktChan := rfl
@[simp] theorem setBias_pktTs (b : Bool) (s : State) : (setBias b s).pktTs = s.pktTs := rfl
@[simp] theorem setBias_pktSize (b : Bool) (s : State) : (setBias b s).pktSize = s.pktSize := rfl
@[simp] theorem setBias_pktCur (b : Bool) (s : State) : (setBias b s).pktCur = s.pktCur := rfl
@[simp] theorem setBias_pktMem (b : Bool) (s : State) : (setBias b s).pktMem = s.pktMem := rfl
@[simp] theorem setBias_txLine (b : Bool) (s : State) : (setBias b s).txLine = s.txLine := rfl
@[simp] theorem setBias_bitPinDir (b : Bool) (s : State) : (setBias b s).bitPinDir = s.bitPinDir := rfl
@[simp] theorem setBias_paBias (b : Bool) (s : State) : (setBias b s).paBias = b := rfl
@[simp] theorem setBias_fault (b : Bool) (s : State) : (setBias b s).fault = s.fault := rfl
@[simp] theorem setBias_cfg (b : Bool) (s : State) : (setBias b s).cfg = s.cfg := rfl
@[simp] theorem setBias_chip (b : Bool) (s : State) : (setBias b s).chip = s.chip := rfl
@[simp] theorem setBias_arriving (b : Bool) (s : State) : (setBias b s).arriving = s.arriving := rfl
@[simp] theorem setBias_port (b : Bool) (s : State) : (setBias b s).port = s.port := rfl
@[simp] theorem setBias_trace (b : Bool) (s : State) : (setBias b s).trace = s.trace ++ [.bias b] := rfl

@[simp] theorem chipSetProperty_mode (g n st : Byte) (bs : List Byte) (s : State) : (chipSetProperty g n st bs s).mode = s.mode := rfl
@[simp] theorem chipSetProperty_utc (g n st : Byte) (bs : List Byte) (s : State) : (chipSetProperty g n st bs s).utc = s.utc := rfl
@[simp] theorem chipSetProperty_lastTx (g n st : Byte) (bs : List Byte) (s : State) : (chipSetProperty g n st bs s).lastTx = s.lastTx := rfl
@[simp] theorem chipSetProperty_chan (g n st : Byte) (bs : List Byte) (s : State) : (chipSetProperty g n st bs s).chan = s.chan := rfl
@[simp] theorem chipSetProperty_bitPos (g n st : Byte) (bs : List Byte) (s : State) : (chipSetProperty g n st bs s).bitPos = s.bitPos := rfl
@[simp] theorem chipSetProperty_pktValid (g n st : Byte) (bs : List Byte) (s : State) : (chipSetProperty g n st bs s).pktValid = s.pktValid := rfl
@[simp] theorem chipSetProperty_pktChan (g n st : Byte) (bs : List Byte) (s : State) : (chipSetProperty g n st bs s).pktChan = s.pktChan := rfl
@[simp] theorem chipSetProperty_pktTs (g n st : Byte) (bs : List Byte) (s : State) : (chipSetProperty g n st bs s).pktTs = s.pktTs := rfl
@[simp] theorem chipSetProperty_pktSize (g n st : Byte) (bs : List Byte) (s : State) : (chipSetProperty g n st bs s).pktSize = s.pktSize := rfl
@[simp] theorem chipSetProperty_pktCur (g n st : Byte) (bs : List Byte) (s : State) : (chipSetProperty g n st bs s).pktCur = s.pktCur := rfl
@[simp] theorem chipSetProperty_pktMem (g n st : Byte) (bs : List Byte) (s : State) : (chipSetProperty g n st bs s).pktMem = s.pktMem := rfl
@[simp] theorem chipSetProperty_txLine (g n st : Byte) (bs : List Byte) (s : State) : (chipSetProperty g n st bs s).txLine = s.txLine := rfl
@[simp] theorem chipSetProperty_bitPinDir (g n st : Byte) (bs : List Byte) (s : State) : (chipSetProperty g n st bs s).bitPinDir = s.bitPinDir := rfl
@[simp] theorem chipSetProperty_paBias (g n st : Byte) (bs : List Byte) (s : State) : (chipSetProperty g n st bs s).paBias = s.paBias := rfl
@[simp] theorem chipSetProperty_fault (g n st : Byte) (bs : List Byte) (s : State) : (chipSetProperty g n st bs s).fault = s.fault := rfl
@[simp] theorem chipSetProperty_cfg (g n st : Byte) (bs : List Byte) (s : State) : (chipSetProperty g n st bs s).cfg = s.cfg := rfl
@[simp] theorem chipSetProperty_chip (g n st : Byte) (bs : List Byte) (s : State) : (chipSetProperty g n st bs s).chip = { s.chip with props := s.chip.props.writeBytes (propKey g st.toNat) (bs.take n.toNat) } := rfl
@[simp] theorem chipSetProperty_arriving (g n st : Byte) (bs : List Byte) (s : State) : (chipSetProperty g n st bs s).arriving = s.arriving := rfl
@[simp] theorem chipSetProperty_port (g n st : Byte) (bs : List Byte) (s : State) : (chipSetProperty g n st bs s).port = s.port := rfl
@[simp] theorem chipSetProperty_trace (g n st : Byte) (bs : List Byte) (s : State) : (chipSetProperty g n st bs s).trace = s.trace ++ [.cmd (.setProperty g n st bs)] := rfl

@[simp] theorem chipGpioPinCfg_mode (p : PinMap) (s : State) : (chipGpioPinCfg p s).mode = s.mode := rfl
@[simp] theorem chipGpioPinCfg_utc (p : PinMap) (s : State) : (chipGpioPinCfg p s).utc = s.utc := rfl
@[simp] theorem chipGpioPinCfg_lastTx (p : PinMap) (s : State) : (chipGpioPinCfg p s).lastTx = s.lastTx := rfl
@[simp] theorem chipGpioPinCfg_chan (p : PinMap) (s : State) : (chipGpioPinCfg p s).chan = s.chan := rfl
@[simp] theorem chipGpioPinCfg_bitPos (p : PinMap) (s : State) : (chipGpioPinCfg p s).bitPos = s.bitPos := rfl
@[simp] theorem chipGpioPinCfg_pktValid (p : PinMap) (s : State) : (chipGpioPinCfg p s).pktValid = s.pktValid := rfl
@[simp] theorem chipGpioPinCfg_pktChan (p : PinMap) (s : State) : (chipGpioPinCfg p s).pktChan = s.pktChan := rfl
@[simp] theorem chipGpioPinCfg_pktTs (p : PinMap) (s : State) : (chipGpioPinCfg p s).pktTs = s.pktTs := rfl
@[simp] theorem chipGpioPinCfg_pktSize (p : PinMap) (s : State) : (chipGpioPinCfg p s).pktSize = s.pktSize := rfl
@[simp] theorem chipGpioPinCfg_pktCur (p : PinMap) (s : State) : (chipGpioPinCfg p s).pktCur = s.pktCur := rfl
@[simp] theorem chipGpioPinCfg_pktMem (p : PinMap) (s : State) : (chipGpioPinCfg p s).pktMem = s.pktMem := rfl
@[simp] theorem chipGpioPinCfg_txLine (p : PinMap) (s : State) : (chipGpioPinCfg p s).txLine = s.txLine := rfl
@[simp] theorem chipGpioPinCfg_bitPinDir (p : PinMap) (s : State) : (chipGpioPinCfg p s).bitPinDir = s.bitPinDir := rfl
@[simp] theorem chipGpioPinCfg_paBias (p : PinMap) (s : State) : (chipGpioPinCfg p s).paBias = s.paBias := rfl
@[simp] theorem chipGpioPinCfg_fault (p : PinMap) (s : State) : (chipGpioPinCfg p s).fault = s.fault := rfl
@[simp] theorem chipGpioPinCfg_cfg (p : PinMap) (s : State) : (chipGpioPinCfg p s).cfg = s.cfg := rfl
@[simp] theorem chipGpioPinCfg_chip (p : PinMap) (s : State) : (chipGpioPinCfg p s).chip = { s.chip with pins := p } := rfl
@[simp] theorem chipGpioPinCfg_arriving (p : PinMap) (s : State) : (chipGpioPinCfg p s).arriving = s.arriving := rfl
@[simp] theorem chipGpioPinCfg_port (p : PinMap) (s : State) : (chipGpioPinCfg p s).port = s.port := rfl
@[simp] theorem chipGpioPinCfg_trace (p : PinMap) (s : State) : (chipGpioPinCfg p s).trace = s.trace ++ [.cmd (.gpioPinCfg p)] := rfl

@[simp] theorem chipStartTx_mode (c k l d r : Byte) (s : State) : (chipStartTx c k l d r s).mode = s.mode := rfl
@[simp] theorem chipStartTx_utc (c k l d r : Byte) (s : State) : (chipStartTx c k l d r s).utc = s.utc := rfl
@[simp] theorem chipStartTx_lastTx (c k l d r : Byte) (s : State) : (chipStartTx c k l d r s).lastTx = s.lastTx := rfl
@[simp] theorem chipStartTx_chan (c k l d r : Byte) (s : State) : (chipStartTx c k l d r s).chan = s.chan := rfl
@[simp] theorem chipStartTx_bitPos (c k l d r : Byte) (s : State) : (chipStartTx c k l d r s).bitPos = s.bitPos := rfl
@[simp] theorem chipStartTx_pktValid (c k l d r : Byte) (s : State) : (chipStartTx c k l d r s).pktValid = s.pktValid := rfl
@[simp] theorem chipStartTx_pktChan (c k l d r : Byte) (s : State) : (chipStartTx c k l d r s).pktChan = s.pktChan := rfl
@[simp] theorem chipStartTx_pktTs (c k l d r : Byte) (s : State) : (chipStartTx c k l d r s).pktTs = s.pktTs := rfl
@[simp] theorem chipStartTx_pktSize (c k l d r : Byte) (s : State) : (chipStartTx c k l d r s).pktSize = s.pktSize := rfl
@[simp] theorem chipStartTx_pktCur (c k l d r : Byte) (s : State) : (chipStartTx c k l d r s).pktCur = s.pktCur := rfl
@[simp] theorem chipStartTx_pktMem (c k l d r : Byte) (s : State) : (chipStartTx c k l d r s).pktMem = s.pktMem := rfl
@[simp] theorem chipStartTx_txLine (c k l d r : Byte) (s : State) : (chipStartTx c k l d r s).txLine = s.txLine := rfl
@[simp] theorem chipStartTx_bitPinDir (c k l d r : Byte) (s : State) : (chipStartTx c k l d r s).bitPinDir = s.bitPinDir := rfl
@[simp] theorem chipStartTx_paBias (c k l d r : Byte) (s : State) : (chipStartTx c k l d r s).paBias = s.paBias := rfl
@[simp] theorem chipStartTx_fault (c k l d r : Byte) (s : State) : (chipStartTx c k l d r s).fault = s.fault := rfl
@[simp] theorem chipStartTx_cfg (c k l d r : Byte) (s : State) : (chipStartTx c k l d r s).cfg = s.cfg := rfl
@[simp] theorem chipStartTx_chip (c k l d r : Byte) (s : State) : (chipStartTx c k l d r s).chip = s.chip := rfl
@[simp] theorem chipStartTx_arriving (c k l d r : Byte) (s : State) : (chipStartTx c k l d r s).arriving = s.arriving := rfl
@[simp] theorem chipStartTx_port (c k l d r : Byte) (s : State) : (chipStartTx c k l d r s).port = s.port := rfl
@[simp] theorem chipStartTx_trace (c k l d r : Byte) (s : State) : (chipStartTx c k l d r s).trace = s.trace ++ [.cmd (.startTx c k l d r)] := rfl

@[simp] theorem chipGetStatus_mode (s : State) : (chipGetStatus s).mode = s.mode := rfl
@[simp] theorem chipGetStatus_utc (s : State) : (chipGetStatus s).utc = s.utc := rfl
@[simp] theorem chipGetStatus_lastTx (s : State) : (chipGetStatus s).lastTx = s.lastTx := rfl
@[simp] theorem chipGetStatus_chan (s : State) : (chipGetStatus s).chan = s.chan := rfl
@[simp] theorem chipGetStatus_bitPos (s : State) : (chipGetStatus s).bitPos = s.bitPos := rfl
@[simp] theorem chipGetStatus_pktValid (s : State) : (chipGetStatus s).pktValid = s.pktValid := rfl
@[simp] theorem chipGetStatus_pktChan (s : State) : (chipGetStatus s).pktChan = s.pktChan := rfl
@[simp] theorem chipGetStatus_pktTs (s : State) : (chipGetStatus s).pktTs = s.pktTs := rfl
@[simp] theorem chipGetStatus_pktSize (s : State) : (chipGetStatus s).pktSize = s.pktSize := rfl
@[simp] theorem chipGetStatus_pktCur (s : State) : (chipGetStatus s).pktCur = s.pktCur := rfl
@[simp] theorem chipGetStatus_pktMem (s : State) : (chipGetStatus s).pktMem = s.pktMem := rfl
@[simp] theorem chipGetStatus_txLine (s : State) : (chipGetStatus s).txLine = s.txLine := rfl
@[simp] theorem chipGetStatus_bitPinDir (s : State) : (chipGetStatus s).bitPinDir = s.bitPinDir := rfl
@[simp] theorem chipGetStatus_paBias (s : State) : (chipGetStatus s).paBias = s.paBias := rfl
@[simp] theorem chipGetStatus_fault (s : State) : (chipGetStatus s).fault = s.fault := rfl
@[simp] theorem chipGetStatus_cfg (s : State) : (chipGetStatus s).cfg = s.cfg := rfl
@[simp] theorem chipGetStatus_chip (s : State) : (chipGetStatus s).chip = s.chip := rfl
@[simp] theorem chipGetStatus_arriving (s : State) : (chipGetStatus s).arriving = s.arriving := rfl
@[simp] theorem chipGetStatus_port (s : State) : (chipGetStatus s).port = s.port := rfl
@[simp] theorem chipGetStatus_trace (s : State) : (chipGetStatus s).trace = s.trace ++ [.cmd .getChipStatus] := rfl

@[simp] theorem raiseAssert_mode (c : FaultCode) (s : State) : (raiseAssert c s).mode = s.mode := rfl
@[simp] theorem raiseAssert_utc (c : FaultCode) (s : State) : (raiseAssert c s).utc = s.utc := rfl
@[simp] theorem raiseAssert_lastTx (c : FaultCode) (s : State) : (raiseAssert c s).lastTx = s.lastTx := rfl
@[simp] theorem raiseAssert_chan (c : FaultCode) (s : State) : (raiseAssert c s).chan = s.chan := rfl
@[simp] theorem raiseAssert_bitPos (c : FaultCode) (s : State) : (raiseAssert c s).bitPos = s.bitPos := rfl
@[simp] theorem raiseAssert_pktValid (c : FaultCode) (s : State) : (raiseAssert c s).pktValid = s.pktValid := rfl
@[simp] theorem raiseAssert_pktChan (c : FaultCode) (s : State) : (raiseAssert c s).pktChan = s.pktChan := rfl
@[simp] theorem raiseAssert_pktTs (c : FaultCode) (s : State) : (raiseAssert c s).pktTs = s.pktTs := rfl
@[simp] theorem raiseAssert_pktSize (c : FaultCode) (s : State) : (raiseAssert c s).pktSize = s.pktSize := rfl
@[simp] theorem raiseAssert_pktCur (c : FaultCode) (s : State) : (raiseAssert c s).pktCur = s.pktCur := rfl
@[simp] theorem raiseAssert_pktMem (c : FaultCode) (s : State) : (raiseAssert c s).pktMem = s.pktMem := rfl
@[simp] theorem raiseAssert_txLine (c : FaultCode) (s : State) : (raiseAssert c s).txLine = s.txLine := rfl
@[simp] theorem raiseAssert_bitPinDir (c : FaultCode) (s : State) : (raiseAssert c s).bitPinDir = s.bitPinDir := rfl
@[simp] theorem raiseAssert_paBias (c : FaultCode) (s : State) : (raiseAssert c s).paBias = s.paBias := rfl
@[simp] theorem raiseAssert_fault (c : FaultCode) (s : State) : (raiseAssert c s).fault = c := rfl
@[simp] theorem raiseAssert_cfg (c : FaultCode) (s : State) : (raiseAssert c s).cfg = s.cfg := rfl
@[simp] theorem raiseAssert_chip (c : FaultCode) (s : State) : (raiseAssert c s).chip = s.chip := rfl
@[simp] theorem raiseAssert_arriving (c : FaultCode) (s : State) : (raiseAssert c s).arriving = s.arriving := rfl
@[simp] theorem raiseAssert_port (c : FaultCode) (s : State) : (raiseAssert c s).port = s.port := rfl
@[simp] theorem raiseAssert_trace (c : FaultCode) (s : State) : (raiseAssert c s).trace = s.trace ++ [.log .assertDoubleAssign] := rfl

end Sys2Proof.Machine
end

