-- ==== Sys2Proof/Laws/Ops.lean ====
section
/-! SUPPORT. One lemma per shared operation of Machine/Ops.lean and Machine/Flags.lean: everything the operation can do. -/

namespace Sys2Proof.Machine

/-! ### Sequencing and guards -/

@[simp] theorem andThen_next (s : State) (k : State → Result) : andThen (.next s) k = k s := rfl
@[simp] theorem andThen_fault (f : Fault) (k : State → Result) : andThen (.fault f) k = .fault f := rfl
@[simp] theorem andThen_refused (x : Refusal) (k : State → Result) : andThen (.refused x) k = .refused x := rfl

theorem andThen_eq_next {r : Result} {k : State → Result} {t : State} (h : andThen r k = .next t) :
    ∃ u, r = .next u ∧ k u = .next t := by
  cases r with
  | next u => exact ⟨u, rfl, h⟩
  | fault f => cases h
  | refused x => cases h

@[simp] theorem unlessStopped_running {s : State} (k : Result) (h : s.fault = .none) : unlessStopped s k = k := by
  simp [unlessStopped, h]

@[simp] theorem unlessStopped_stopped {s : State} (k : Result) (h : s.fault = .doubleAssign) :
    unlessStopped s k = .fault .stopped := by
  simp [unlessStopped, h]

theorem unlessStopped_eq_next {s t : State} {k : Result} (h : unlessStopped s k = .next t) :
    s.fault = .none ∧ k = .next t := by
  cases hf : s.fault with
  | none => exact ⟨rfl, by rwa [unlessStopped_running k hf] at h⟩
  | doubleAssign => rw [unlessStopped_stopped k hf] at h; cases h

@[simp] theorem admitEvent_ready {s : State} (k : Result) (hf : s.fault = .none) (ha : s.arriving = none) :
    admitEvent s k = k := by
  simp [admitEvent, hf, ha]

theorem admitEvent_eq_next {s t : State} {k : Result} (h : admitEvent s k = .next t) :
    s.fault = .none ∧ s.arriving = none ∧ k = .next t := by
  obtain ⟨hf, h⟩ := unlessStopped_eq_next h
  cases ha : s.arriving with
  | none => exact ⟨hf, rfl, by simpa [ha] using h⟩
  | some a => simp [ha] at h

@[simp] theorem unlessCutShort_whole {s : State} (k : Result) (h : s.arriving = none) : unlessCutShort s k = k := by
  cases hf : s.fault <;> simp [unlessCutShort, h, hf]

@[simp] theorem unlessCutShort_stopped {s : State} (k : Result) (h : s.fault = .doubleAssign) :
    unlessCutShort s k = k := by
  simp [unlessCutShort, h]

@[simp] theorem unlessCutShort_inside {s : State} {a : Arriving} (k : Result) (hf : s.fault = .none)
    (ha : s.arriving = some a) : unlessCutShort s k = .refused .tooFewDataWords := by
  simp [unlessCutShort, hf, ha]

theorem unlessCutShort_eq_next {s t : State} {k : Result} (h : unlessCutShort s k = .next t) :
    (s.fault = .none → s.arriving = none) ∧ k = .next t := by
  cases hf : s.fault with
  | doubleAssign => exact ⟨by simp, by rwa [unlessCutShort_stopped k hf] at h⟩
  | none =>
    cases ha : s.arriving with
    | none => exact ⟨fun _ => rfl, by rwa [unlessCutShort_whole k ha] at h⟩
    | some a => rw [unlessCutShort_inside k hf ha] at h; cases h

@[simp] theorem unlessTransmitting_receiving {s : State} (k : Result) (h : s.mode = .receiving) :
    unlessTransmitting s k = k := by
  simp [unlessTransmitting, h]

theorem unlessTransmitting_eq_next {s t : State} {k : Result} (h : unlessTransmitting s k = .next t) :
    s.mode = .receiving ∧ k = .next t := by
  cases hm : s.mode with
  | receiving => exact ⟨rfl, by rwa [unlessTransmitting_receiving k hm] at h⟩
  | transmitting => simp [unlessTransmitting, hm] at h

/-! ### The chip's reply -/

/-- The block reads the event's fault answer and no other bit of the reply. -/
theorem faultBit_statusReply {w : Nat} (n : Nat) (fault : Bool) (h : 4 ≤ w) :
    faultBit (statusReply w n fault) = fault := by
  have h3 : 3 < w := by omega
  simp [faultBit, statusReply, List.getD_eq_getElem?_getD, h3]

theorem faultBit_chipReply (fault : Bool) (s : State) (h : 4 ≤ s.cfg.statusW) :
    faultBit (chipReply fault s) = fault := faultBit_statusReply _ _ h

/-! ### Pins, power, reception -/

theorem configGpiosForRx_eq (s : State) :
    configGpiosForRx s =
      { s with
        bitPinDir := .input
        chip      := { s.chip with pins := rxPins s.cfg.chip }
        trace     := s.trace ++ [.pinMode .input, .cmd (.gpioPinCfg (rxPins s.cfg.chip))] } := by
  simp [configGpiosForRx, chipGpioPinCfg, setPinDir, State.emit]

theorem enterReceive_eq (ch : ChanIx) (s : State) :
    enterReceive ch s =
      { s with
        paBias    := false
        bitPinDir := .input
        chan      := ch
        chip      := { s.chip with pins := rxPins s.cfg.chip }
        trace     := s.trace ++ [.bias false, .pinMode .input, .cmd (.gpioPinCfg (rxPins s.cfg.chip)),
          .rxStartReceiving ch] } := by
  simp [enterReceive, configGpiosForRx_eq, setBias, State.emit]

theorem setTxPower_some {s : State} {level : Nat} {e : PowerEntry} (h : s.cfg.powerTable[level]? = some e) :
    setTxPower level s = .next (sendPower e s) := by
  simp [setTxPower, powerEntryAt, h]

theorem setTxPower_eq_next {s t : State} {level : Nat} (h : setTxPower level s = .next t) :
    ∃ e, s.cfg.powerTable[level]? = some e ∧ t = sendPower e s := by
  cases he : s.cfg.powerTable[level]? with
  | none => simp [setTxPower, powerEntryAt, he] at h
  | some e => rw [setTxPower_some he] at h; cases h; exact ⟨e, rfl, rfl⟩

/-- The state after ConfigGPIOsForTX with the power entry `e`. -/
def keyed (e : PowerEntry) (s : State) : State :=
  { s with
    bitPinDir := .output
    paBias    := true
    chip      :=
      { props := s.chip.props.writeBytes (propKey s.cfg.chip.paGroup s.cfg.chip.paStart.toNat) (PowerEntry.bytes e)
        pins  := txPins s.cfg.chip }
    trace     := s.trace ++ [.pinMode .output, .cmd (.gpioPinCfg (txPins s.cfg.chip)),
      .cmd (.setProperty s.cfg.chip.paGroup 3#8 s.cfg.chip.paStart (PowerEntry.bytes e)), .bias true] }

theorem configGpiosForTx_some {s : State} {level : Nat} {e : PowerEntry} (h : s.cfg.powerTable[level]? = some e) :
    configGpiosForTx level s = .next (keyed e s) := by
  simp [configGpiosForTx, setTxPower, powerEntryAt, h, keyed, sendPower, chipSetProperty, chipGpioPinCfg,
    setPinDir, setBias, State.emit, PowerEntry.bytes]

theorem configGpiosForTx_eq_next {s t : State} {level : Nat} (h : configGpiosForTx level s = .next t) :
    ∃ e, s.cfg.powerTable[level]? = some e ∧ t = keyed e s := by
  cases he : s.cfg.powerTable[level]? with
  | none => simp [configGpiosForTx, setTxPower, powerEntryAt, he] at h
  | some e => rw [configGpiosForTx_some he] at h; cases h; exact ⟨e, rfl, rfl⟩

theorem startTxOn_some {s : State} {ch : ChanIx} {c : Channel} (k : Byte) (h : s.cfg.channels[ch.toNat]? = some c) :
    startTxOn ch k s = .next (s.emit (.cmd (.startTx c.ordinal k 0#8 0#8 s.cfg.chip.txRepeat))) := by
  simp [startTxOn, channelOrdinal, h, chipStartTx]

theorem startTxOn_eq_next {s t : State} {ch : ChanIx} {k : Byte} (h : startTxOn ch k s = .next t) :
    ∃ c, s.cfg.channels[ch.toNat]? = some c ∧
      t = s.emit (.cmd (.startTx c.ordinal k 0#8 0#8 s.cfg.chip.txRepeat)) := by
  cases hc : s.cfg.channels[ch.toNat]? with
  | none => simp [startTxOn, channelOrdinal, hc] at h
  | some c => rw [startTxOn_some k hc] at h; cases h; exact ⟨c, rfl, rfl⟩

/-! ### Transmission -/

/-- The state after the start sequence of R113, before the fault bit is looked at. -/
def started (e : PowerEntry) (c : Channel) (s : State) : State :=
  let k := keyed e { s with mode := .transmitting }
  { k with trace := k.trace ++
      [.cmd (.startTx c.ordinal s.cfg.chip.txCondNormal 0#8 0#8 s.cfg.chip.txRepeat), .cmd .getChipStatus] }

theorem startTransmitting_some {s : State} {e : PowerEntry} {c : Channel} (fault : Bool)
    (he : s.cfg.powerTable[s.cfg.txPowerLevel]? = some e) (hc : s.cfg.channels[s.pktChan.toNat]? = some c)
    (hw : 4 ≤ s.cfg.statusW) :
    startTransmitting fault s = .next (if fault then txStartFailed (started e c s) else started e c s) := by
  have h1 : configGpiosForTx s.cfg.txPowerLevel { s with mode := .transmitting } =
      .next (keyed e { s with mode := .transmitting }) := configGpiosForTx_some he
  have h2 : startTxOn (keyed e { s with mode := .transmitting }).pktChan
      (keyed e { s with mode := .transmitting }).cfg.chip.txCondNormal (keyed e { s with mode := .transmitting }) = _ :=
    startTxOn_some _ (c := c) hc
  rw [startTransmitting, h1, andThen_next, h2, andThen_next, faultBit_chipReply _ _ (by exact hw)]
  have h3 : chipGetStatus (State.emit (keyed e { s with mode := .transmitting })
      (.cmd (.startTx c.ordinal (keyed e { s with mode := .transmitting }).cfg.chip.txCondNormal 0#8 0#8
        (keyed e { s with mode := .transmitting }).cfg.chip.txRepeat))) = started e c s := by
    simp [chipGetStatus, started, State.emit, keyed]
  rw [h3]
  cases fault <;> rfl

/-- A transmit start answers a state only through the two tables, and then it is the started state or the state after the
recovery. -/
theorem startTransmitting_eq_next {s t : State} {fault : Bool} (h : startTransmitting fault s = .next t) :
    ∃ e c, s.cfg.powerTable[s.cfg.txPowerLevel]? = some e ∧ s.cfg.channels[s.pktChan.toNat]? = some c ∧
      (t = started e c s ∨ t = txStartFailed (started e c s)) := by
  obtain ⟨u, hu, h⟩ := andThen_eq_next h
  obtain ⟨e, he, rfl⟩ := configGpiosForTx_eq_next hu
  obtain ⟨v, hv, h⟩ := andThen_eq_next h
  obtain ⟨c, hc, rfl⟩ := startTxOn_eq_next hv
  refine ⟨e, c, he, hc, ?_⟩
  split at h <;> cases h
  · exact .inr (by simp [chipGetStatus, started, State.emit, keyed])
  · exact .inl (by simp [chipGetStatus, started, State.emit, keyed])

theorem txStartFailed_eq (s : State) :
    txStartFailed s =
      { s with
        mode      := .receiving
        paBias    := false
        bitPinDir := .input
        chip      := { s.chip with pins := rxPins s.cfg.chip }
        trace     := s.trace ++ [.log (.txStartFailed s.chan), .bias false, .pinMode .input,
          .cmd (.gpioPinCfg (rxPins s.cfg.chip)), .rxStartReceiving s.chan] } := by
  simp [txStartFailed, enterReceive_eq, State.emit]

theorem discardStale_eq (s : State) :
    discardStale s =
      { s with
        pktValid := false
        trace    := s.trace ++ [.poolFree, .log (.staleDiscard (packetAge s) s.pktChan)] } := by
  simp [discardStale, State.emit]

theorem txComplete_eq (s : State) :
    txComplete s =
      { s with
        lastTx    := s.utc
        mode      := .receiving
        paBias    := false
        bitPinDir := .input
        chan      := s.pktChan
        pktValid  := false
        chip      := { s.chip with pins := rxPins s.cfg.chip }
        trace     := s.trace ++ [.blink s.cfg.blinkTxTag, .bias false, .pinMode .input,
          .cmd (.gpioPinCfg (rxPins s.cfg.chip)), .rxStartReceiving s.pktChan, .log (.txDone s.pktCur s.pktChan),
          .poolFree] } := by
  simp [txComplete, enterReceive_eq, State.emit]

theorem shiftBit_some {s : State} {b : Bool} (h : s.pktMem[s.pktCur.toNat]? = some b) :
    shiftBit s =
      .next { s with pktCur := s.pktCur + 1#16, txLine := b, trace := s.trace ++ [.pinLevel b] } := by
  simp [shiftBit, currentPacketBit, h, State.emit]

theorem shiftBit_eq_next {s t : State} (h : shiftBit s = .next t) :
    ∃ b, s.pktMem[s.pktCur.toNat]? = some b ∧
      t = { s with pktCur := s.pktCur + 1#16, txLine := b, trace := s.trace ++ [.pinLevel b] } := by
  cases hb : s.pktMem[s.pktCur.toNat]? with
  | none => simp [shiftBit, currentPacketBit, hb] at h
  | some b => rw [shiftBit_some hb] at h; cases h; exact ⟨b, rfl, rfl⟩

/-! ### Hand-over and reset -/

theorem assignPacket_held {s : State} (ch : ChanIx) (size : PktLen) (bits : List Bool) (h : s.pktValid = true) :
    assignPacket ch size bits s = raiseAssert .doubleAssign s := by
  simp [assignPacket, h]

theorem assignPacket_empty {s : State} (ch : ChanIx) (size : PktLen) (bits : List Bool) (h : s.pktValid = false) :
    assignPacket ch size bits s =
      { s with
        pktValid := true
        pktChan  := ch
        pktTs    := s.utc
        pktSize  := size
        pktCur   := 0#16
        pktMem   := pktMemWith s.pktMem bits } := by
  simp [assignPacket, h]

theorem pktMemWith_length {mem bits : List Bool} (h : bits.length ≤ mem.length) :
    (pktMemWith mem bits).length = mem.length := by
  simp only [pktMemWith, List.length_append, List.length_drop]; omega

@[simp] theorem packetBits_length (size : PktLen) (words : List Arg) : (packetBits size words).length = size.toNat := by
  simp [packetBits]

@[simp] theorem applyReset_chip (d : ResetDraw) (s : State) : (applyReset d s).chip = s.chip := rfl
@[simp] theorem applyReset_cfg (d : ResetDraw) (s : State) : (applyReset d s).cfg = s.cfg := rfl
@[simp] theorem applyReset_port (d : ResetDraw) (s : State) : (applyReset d s).port = s.port := rfl
@[simp] theorem applyReset_trace (d : ResetDraw) (s : State) : (applyReset d s).trace = s.trace := rfl
@[simp] theorem applyReset_fault (d : ResetDraw) (s : State) : (applyReset d s).fault = .none := rfl
@[simp] theorem applyReset_mode (d : ResetDraw) (s : State) : (applyReset d s).mode = .receiving := rfl
@[simp] theorem applyReset_pktValid (d : ResetDraw) (s : State) : (applyReset d s).pktValid = false := rfl
@[simp] theorem applyReset_arriving (d : ResetDraw) (s : State) : (applyReset d s).arriving = none := rfl

theorem applyReset_chan_lt (d : ResetDraw) (s : State) (h : 1 ≤ s.cfg.nch) :
    (applyReset d s).chan.toNat < s.cfg.nch := by
  simp only [applyReset, State.resetWith]
  split
  · assumption
  · exact h

theorem resetWith_memLength (c : Cfg) (d : ResetDraw) (p : PinMap) :
    (State.resetWith c d p).pktMem.length = c.pktMaxBits := by
  simp [State.resetWith]

/-! ### The operations keep the canonical form of the chip property space -/

theorem chipSetProperty_wf {s : State} (g n st : Byte) (bs : List Byte) (h : s.chip.props.wf) :
    (chipSetProperty g n st bs s).chip.props.wf := Memory.writeBytes_wf _ _ h

theorem keyed_wf {s : State} (e : PowerEntry) (h : s.chip.props.wf) : (keyed e s).chip.props.wf :=
  Memory.writeBytes_wf _ _ h

end Sys2Proof.Machine
end

