-- ==== Sys2Proof/Laws/Exec.lean ====
section
/-! SUPPORT. One inversion lemma per meaning: if exec answers a next state, what was admitted and which state it is. -/

namespace Sys2Proof.Machine

/-- The state after the delegation and the load of BITPOS that open a receiving tick (R101). -/
def ticked (pos : BitPos) (s : State) : State := { s.emit .rxOnBitClock with bitPos := pos }

theorem startTransmitting_eq_next_fault {s t : State} {fault : Bool} (hw : 4 ≤ s.cfg.statusW)
    (h : startTransmitting fault s = .next t) :
    ∃ e c, s.cfg.powerTable[s.cfg.txPowerLevel]? = some e ∧ s.cfg.channels[s.pktChan.toNat]? = some c ∧
      t = if fault then txStartFailed (started e c s) else started e c s := by
  obtain ⟨e, c, he, hc, -⟩ := startTransmitting_eq_next h
  rw [startTransmitting_some fault he hc hw] at h
  cases h
  exact ⟨e, c, he, hc, rfl⟩

/-- What a receiving tick can do: nothing beyond its opening, the age discard, or a transmit start. -/
theorem tickReceiving_eq_next {s t : State} {pos : BitPos} {rssi nf : Rssi} {fault : Bool}
    (h : tickReceiving pos rssi nf fault s = .next t) :
    t = ticked pos s ∨
    ((s.pktValid = true ∧ pos = s.cfg.ccaBit ∧ s.pktChan = s.chan) ∧
      ((s.cfg.testMode = false ∧ timeKnown s = true ∧ stale s = true ∧ t = discardStale (ticked pos s)) ∨
        ((s.cfg.testMode = true ∨ (timeKnown s = true ∧ stale s = false ∧ channelClear rssi nf = true ∧
            intervalElapsed s = true)) ∧
          startTransmitting fault (ticked pos s) = .next t))) := by
  change (if !s.pktValid then Host.Outcome.next (ticked pos s)
    else if !(pos == s.cfg.ccaBit) then .next (ticked pos s)
    else if !(s.pktChan == s.chan) then .next (ticked pos s)
    else if s.cfg.testMode then startTransmitting fault (ticked pos s)
    else normalPolicy rssi nf fault (ticked pos s)) = .next t at h
  cases hv : s.pktValid with
  | false => simp [hv] at h; exact .inl h.symm
  | true =>
  by_cases hp : pos = s.cfg.ccaBit
  case neg => simp [hv, hp] at h; exact .inl h.symm
  subst hp
  by_cases hc : s.pktChan = s.chan
  case neg => simp [hv, hc] at h; exact .inl h.symm
  cases htm : s.cfg.testMode with
  | true =>
    simp only [hv, hc, htm, beq_self_eq_true, Bool.not_true, Bool.false_eq_true, if_false, if_true] at h
    exact .inr ⟨⟨rfl, rfl, hc⟩, .inr ⟨.inl rfl, h⟩⟩
  | false =>
    simp only [hv, hc, htm, beq_self_eq_true, Bool.not_true, Bool.false_eq_true, if_false, normalPolicy] at h
    change (if !timeKnown s then Host.Outcome.next (ticked s.cfg.ccaBit s)
      else if stale s then .next (discardStale (ticked s.cfg.ccaBit s))
      else if !channelClear rssi nf then .next (ticked s.cfg.ccaBit s)
      else if intervalElapsed s then startTransmitting fault (ticked s.cfg.ccaBit s)
      else .next (ticked s.cfg.ccaBit s)) = .next t at h
    cases hk : timeKnown s with
    | false => simp [hk] at h; exact .inl h.symm
    | true =>
    cases hs : stale s with
    | true => simp [hk, hs] at h; exact .inr ⟨⟨rfl, rfl, hc⟩, .inl ⟨rfl, rfl, rfl, h.symm⟩⟩
    | false =>
    cases hcl : channelClear rssi nf with
    | false => simp [hk, hs, hcl] at h; exact .inl h.symm
    | true =>
    cases hi : intervalElapsed s with
    | false => simp [hk, hs, hcl, hi] at h; exact .inl h.symm
    | true =>
      simp only [hk, hs, hcl, hi, Bool.not_true, Bool.false_eq_true, if_false, if_true] at h
      exact .inr ⟨⟨rfl, rfl, hc⟩, .inr ⟨.inr ⟨rfl, rfl, rfl, rfl⟩, h⟩⟩

/-- What a transmitting tick can do: complete at end-of-frame, else drive one bit. -/
theorem tickTransmitting_eq_next {s t : State} (h : tickTransmitting s = .next t) :
    (s.pktCur = s.pktSize ∧ t = txComplete s) ∨
    (s.pktCur ≠ s.pktSize ∧ ∃ b, s.pktMem[s.pktCur.toNat]? = some b ∧
      t = { s with pktCur := s.pktCur + 1#16, txLine := b, trace := s.trace ++ [.pinLevel b] }) := by
  unfold tickTransmitting at h
  by_cases he : s.pktCur = s.pktSize
  · simp [endOfFrame, he] at h; exact .inl ⟨he, h.symm⟩
  · simp [endOfFrame, he] at h; exact .inr ⟨he, shiftBit_eq_next h⟩

theorem execTick_eq_next {s t : State} {pos : BitPos} {rssi nf : Rssi} {fault : Bool}
    (h : exec (.tick pos rssi nf fault) s = .next t) :
    s.fault = .none ∧ s.arriving = none ∧
    ((s.mode = .receiving ∧ tickReceiving pos rssi nf fault s = .next t) ∨
      (s.mode = .transmitting ∧ tickTransmitting s = .next t)) := by
  obtain ⟨hf, ha, h⟩ := admitEvent_eq_next h
  refine ⟨hf, ha, ?_⟩
  cases hm : s.mode with
  | receiving => rw [hm] at h; exact .inl ⟨rfl, h⟩
  | transmitting => rw [hm] at h; exact .inr ⟨rfl, h⟩

theorem execUtc_eq_next {s t : State} {x : Time} (h : exec (.utc x) s = .next t) :
    s.fault = .none ∧ s.arriving = none ∧ t = { s with utc := x } := by
  obtain ⟨hf, ha, h⟩ := admitEvent_eq_next h
  cases h
  exact ⟨hf, ha, rfl⟩

theorem execAssign_eq_next {s t : State} {ch : ChanIx} {size : PktLen} (h : exec (.assign ch size) s = .next t) :
    s.fault = .none ∧ s.arriving = none ∧ ch.toNat < s.cfg.nch ∧ size.toNat ≤ s.cfg.pktMaxBits ∧
    ((dataWordCount size = 0 ∧ t = assignPacket ch size [] s) ∨
      (dataWordCount size ≠ 0 ∧ t = { s with arriving := some ⟨ch, size, []⟩ })) := by
  obtain ⟨hf, ha, h⟩ := admitEvent_eq_next h
  by_cases hc : ch.toNat < s.cfg.nch
  case neg => simp [channelInRange, hc] at h
  by_cases hs : size.toNat ≤ s.cfg.pktMaxBits
  case neg => simp [channelInRange, sizeInRange, hc, hs] at h
  refine ⟨hf, ha, hc, hs, ?_⟩
  by_cases hd : dataWordCount size = 0
  · simp [channelInRange, sizeInRange, hc, hs, hd] at h; exact .inl ⟨hd, h.symm⟩
  · simp [channelInRange, sizeInRange, hc, hs, hd] at h; exact .inr ⟨hd, h.symm⟩

theorem execData_eq_next {s t : State} {bits : Arg} (h : exec (.data bits) s = .next t) :
    s.fault = .none ∧ ∃ a, s.arriving = some a ∧
    ((a.got.length + 1 < dataWordCount a.size ∧
        t = { s with arriving := some { a with got := a.got ++ [bits] } }) ∨
      (dataWordCount a.size ≤ a.got.length + 1 ∧ paddingZero a.size (a.got ++ [bits]) = true ∧
        t = assignPacket a.ch a.size (packetBits a.size (a.got ++ [bits])) { s with arriving := none })) := by
  obtain ⟨hf, h⟩ := unlessStopped_eq_next h
  refine ⟨hf, ?_⟩
  cases ha : s.arriving with
  | none => simp [ha] at h
  | some a =>
    simp only [ha, List.length_append, List.length_singleton] at h
    refine ⟨a, rfl, ?_⟩
    by_cases hl : a.got.length + 1 < dataWordCount a.size
    · simp [hl] at h; exact .inl ⟨hl, h.symm⟩
    · cases hp : paddingZero a.size (a.got ++ [bits]) with
      | false => simp [hl, hp] at h
      | true => simp [hl, hp] at h; exact .inr ⟨by omega, rfl, h.symm⟩

theorem execSlot_eq_next {s t : State} {n : SlotNo} (h : exec (.slot n) s = .next t) :
    s.fault = .none ∧ s.arriving = none ∧
    ((s.mode = .receiving ∧ s.pktValid = true ∧ s.pktChan ≠ s.chan ∧
        t = enterReceive s.pktChan (s.emit (.rxTimeSlotStarted n))) ∨
      (¬ (s.mode = .receiving ∧ s.pktValid = true ∧ s.pktChan ≠ s.chan) ∧ t = s.emit (.rxTimeSlotStarted n))) := by
  obtain ⟨hf, ha, h⟩ := admitEvent_eq_next h
  refine ⟨hf, ha, ?_⟩
  by_cases hr : s.mode = .receiving ∧ s.pktValid = true ∧ s.pktChan ≠ s.chan
  · have : retuneDue (s.emit (.rxTimeSlotStarted n)) = true := by simp [retuneDue, hr]
    simp only [this, if_true] at h
    cases h
    exact .inl ⟨hr.1, hr.2.1, hr.2.2, rfl⟩
  · have : retuneDue (s.emit (.rxTimeSlotStarted n)) = false := by
      cases hd : retuneDue (s.emit (.rxTimeSlotStarted n)) with
      | false => rfl
      | true =>
        exfalso
        apply hr
        simpa [retuneDue, Bool.and_eq_true, and_assoc] using hd
    simp only [this, Bool.false_eq_true, if_false] at h
    cases h
    exact .inr ⟨hr, rfl⟩

/-- The three ways a step answers a state: it holds, it resets, it runs the instruction delivered. -/
theorem step_eq_next {s t : State} (h : step s = .next t) :
    (s.port = [] ∧ (s.fault = .none → s.arriving = none) ∧ t = s) ∨
    (∃ d rest, s.port = .rst d :: rest ∧ (s.fault = .none → s.arriving = none) ∧
      t = applyReset d { s with port := rest }) ∨
    (∃ x rest i, s.port = .wire x :: rest ∧ decode s.cfg.chip x = .ok i ∧ exec i { s with port := rest } = .next t) := by
  unfold step stepWith at h
  split at h
  · obtain ⟨ha, h⟩ := unlessCutShort_eq_next h
    cases h
    exact .inl ⟨‹_›, ha, rfl⟩
  · obtain ⟨ha, h⟩ := unlessCutShort_eq_next h
    cases h
    exact .inr (.inl ⟨_, _, ‹_›, ha, rfl⟩)
  · split at h
    · exact .inr (.inr ⟨_, _, _, ‹_›, ‹_›, h⟩)
    · obtain ⟨-, h⟩ := unlessStopped_eq_next h
      cases h

theorem execStartrx_eq_next {s t : State} {ch : ChanIx} (h : exec (.startrx ch) s = .next t) :
    s.fault = .none ∧ s.arriving = none ∧ ch.toNat < s.cfg.nch ∧ s.mode = .receiving ∧ t = enterReceive ch s := by
  obtain ⟨hf, ha, h⟩ := admitEvent_eq_next h
  by_cases hc : ch.toNat < s.cfg.nch
  case neg => simp [channelInRange, hc] at h
  simp only [channelInRange, hc, decide_true, Bool.not_true, Bool.false_eq_true, if_false] at h
  obtain ⟨hm, h⟩ := unlessTransmitting_eq_next h
  cases h
  exact ⟨hf, ha, hc, hm, rfl⟩

theorem execConfigure_eq_next {s t : State} (h : exec .configure s = .next t) :
    s.fault = .none ∧ s.arriving = none ∧ s.mode = .receiving ∧
      t = sendFilter (sendModulation (s.emit .rxConfigure)) := by
  obtain ⟨hf, ha, h⟩ := admitEvent_eq_next h
  obtain ⟨hm, h⟩ := unlessTransmitting_eq_next h
  cases h
  exact ⟨hf, ha, hm, rfl⟩

theorem execSetpwr_eq_next {s t : State} {level : Byte} (h : exec (.setpwr level) s = .next t) :
    s.fault = .none ∧ s.arriving = none ∧ s.mode = .receiving ∧
      ∃ e, s.cfg.powerTable[level.toNat]? = some e ∧ t = sendPower e s := by
  obtain ⟨hf, ha, h⟩ := admitEvent_eq_next h
  by_cases hl : level.toNat < s.cfg.npwr
  case neg => simp [levelInRange, hl] at h
  simp only [levelInRange, hl, decide_true, Bool.not_true, Bool.false_eq_true, if_false] at h
  obtain ⟨hm, h⟩ := unlessTransmitting_eq_next h
  exact ⟨hf, ha, hm, setTxPower_eq_next h⟩

/-- The state after the carrier test's sequence, before its log line (R156). -/
def carrier (e : PowerEntry) (c : Channel) (ch : ChanIx) (s : State) : State :=
  let k := keyed e (enterReceive ch s)
  { k with trace := k.trace ++
      [.cmd (.startTx c.ordinal s.cfg.chip.txCondCw 0#8 0#8 s.cfg.chip.txRepeat), .cmd .getChipStatus] }

theorem cwReport_eq_next {u t : State} {ch : ChanIx} {fault : Bool}
    (h : Host.Outcome.next (State.emit (chipGetStatus u)
      (.log (.cwStatus ch (faultBit (chipReply fault (chipGetStatus u)))))) = (.next t : Result)) :
    ∃ f, (4 ≤ u.cfg.statusW → f = fault) ∧ t = State.emit (chipGetStatus u) (.log (.cwStatus ch f)) := by
  cases h
  exact ⟨_, fun hw => faultBit_chipReply fault (chipGetStatus u) hw, rfl⟩

theorem execCwtest_eq_next {s t : State} {ch : ChanIx} {fault : Bool} (h : exec (.cwtest ch fault) s = .next t) :
    s.fault = .none ∧ s.arriving = none ∧ ch.toNat < s.cfg.nch ∧ s.mode = .receiving ∧ s.pktValid = false ∧
      ∃ e c f, s.cfg.powerTable[s.cfg.txPowerLevel]? = some e ∧ s.cfg.channels[ch.toNat]? = some c ∧
        (4 ≤ s.cfg.statusW → f = fault) ∧ t = State.emit (carrier e c ch s) (.log (.cwStatus ch f)) := by
  obtain ⟨hf, ha, h⟩ := admitEvent_eq_next h
  by_cases hc : ch.toNat < s.cfg.nch
  case neg => simp [channelInRange, hc] at h
  simp only [channelInRange, hc, decide_true, Bool.not_true, Bool.false_eq_true, if_false] at h
  obtain ⟨hm, h⟩ := unlessTransmitting_eq_next h
  cases hv : s.pktValid with
  | true => simp [hv] at h
  | false =>
  simp only [hv, Bool.false_eq_true, if_false] at h
  obtain ⟨u, hu, h⟩ := andThen_eq_next h
  obtain ⟨e, he, rfl⟩ := configGpiosForTx_eq_next hu
  obtain ⟨v, hv', h⟩ := andThen_eq_next h
  obtain ⟨c, hch, rfl⟩ := startTxOn_eq_next hv'
  obtain ⟨f, hf4, rfl⟩ := cwReport_eq_next h
  refine ⟨hf, ha, hc, hm, rfl, e, c, f, he, hch, hf4, ?_⟩
  simp [chipGetStatus, State.emit, carrier, keyed, enterReceive]
  constructor <;> rfl

end Sys2Proof.Machine
end

