-- ==== Sys2Proof/Laws/Effects.lean ====
section
/-! SUPPORT. Everything exec can do, said once: if it answers a next state, that state is one of the effects listed here, each
written out field by field with the actions it appends. -/

namespace Sys2Proof.Machine

theorem rxPins_eq (k : ChipConsts) : rxPins k = receivePins k := rfl
theorem txPins_eq (k : ChipConsts) : txPins k = transmitPins k := rfl

/-- The next states of an instruction in a state. -/
inductive Effect (s : State) : Instr → State → Prop where
  | tickIdle (pos : BitPos) (rssi nf : Rssi) (fault : Bool) : s.mode = .receiving →
      Effect s (.tick pos rssi nf fault) { s with bitPos := pos, trace := s.trace ++ [.rxOnBitClock] }
  | tickDiscard (pos : BitPos) (rssi nf : Rssi) (fault : Bool) : s.mode = .receiving → Aligned s pos →
      s.cfg.testMode = false → s.utc ≠ 0#32 → age s > s.cfg.maxAge.toNat →
      Effect s (.tick pos rssi nf fault) { s with
        bitPos   := pos
        pktValid := false
        trace    := s.trace ++ [.rxOnBitClock, .poolFree, .log (.staleDiscard (age s) s.pktChan)] }
  | tickStart (pos : BitPos) (rssi nf : Rssi) (fault : Bool) (e : PowerEntry) (ordinal : Byte) : s.mode = .receiving →
      Aligned s pos → StartAllowed s rssi nf → (4 ≤ s.cfg.statusW → fault = false) →
      Effect s (.tick pos rssi nf fault) { s with
        mode      := .transmitting
        bitPos    := pos
        bitPinDir := .output
        paBias    := true
        chip      := ⟨withPower s.cfg e s.chip.props, transmitPins s.cfg.chip⟩
        trace     := s.trace ++ ([.rxOnBitClock] ++ keyActions s.cfg e ++
          startActions s.cfg ordinal s.cfg.chip.txCondNormal) }
  | tickRejected (pos : BitPos) (rssi nf : Rssi) (fault : Bool) (e : PowerEntry) (ordinal : Byte) :
      s.mode = .receiving → Aligned s pos → StartAllowed s rssi nf → (4 ≤ s.cfg.statusW → fault = true) →
      Effect s (.tick pos rssi nf fault) { s with
        mode      := .receiving
        bitPos    := pos
        bitPinDir := .input
        paBias    := false
        chip      := ⟨withPower s.cfg e s.chip.props, receivePins s.cfg.chip⟩
        trace     := s.trace ++ ([.rxOnBitClock] ++ keyActions s.cfg e ++
          startActions s.cfg ordinal s.cfg.chip.txCondNormal ++ [.log (.txStartFailed s.chan)] ++
          enterActions s.cfg s.chan) }
  | tickShift (pos : BitPos) (rssi nf : Rssi) (fault b : Bool) : s.mode = .transmitting → s.pktCur ≠ s.pktSize →
      s.pktMem[s.pktCur.toNat]? = some b →
      Effect s (.tick pos rssi nf fault)
        { s with pktCur := s.pktCur + 1#16, txLine := b, trace := s.trace ++ [.pinLevel b] }
  | tickComplete (pos : BitPos) (rssi nf : Rssi) (fault : Bool) : s.mode = .transmitting → s.pktCur = s.pktSize →
      Effect s (.tick pos rssi nf fault) { s with
        mode      := .receiving
        lastTx    := s.utc
        chan      := s.pktChan
        pktValid  := false
        bitPinDir := .input
        paBias    := false
        chip      := { s.chip with pins := receivePins s.cfg.chip }
        trace     := s.trace ++ ([.blink s.cfg.blinkTxTag] ++ enterActions s.cfg s.pktChan ++
          [.log (.txDone s.pktCur s.pktChan), .poolFree]) }
  | slotOnly (n : SlotNo) : Effect s (.slot n) { s with trace := s.trace ++ [.rxTimeSlotStarted n] }
  | slotRetune (n : SlotNo) : s.mode = .receiving → s.pktValid = true → s.pktChan ≠ s.chan →
      Effect s (.slot n) { s with
        paBias    := false
        bitPinDir := .input
        chan      := s.pktChan
        chip      := { s.chip with pins := receivePins s.cfg.chip }
        trace     := s.trace ++ ([.rxTimeSlotStarted n] ++ enterActions s.cfg s.pktChan) }
  | utc (x : Time) : Effect s (.utc x) { s with utc := x }
  | assignHeader (ch : ChanIx) (size : PktLen) (a : Option Arriving) :
      Effect s (.assign ch size) { s with arriving := a }
  | assignEmpty (ch : ChanIx) (size : PktLen) : s.pktValid = false →
      Effect s (.assign ch size)
        { s with pktValid := true, pktChan := ch, pktTs := s.utc, pktSize := size, pktCur := 0#16 }
  | assignHeld (ch : ChanIx) (size : PktLen) : s.pktValid = true →
      Effect s (.assign ch size) { s with fault := .doubleAssign, trace := s.trace ++ [.log .assertDoubleAssign] }
  | dataMore (bits : Arg) (a : Option Arriving) : Effect s (.data bits) { s with arriving := a }
  | dataLast (bits : Arg) (ch : ChanIx) (size : PktLen) (mem : List Bool) : s.pktValid = false →
      Effect s (.data bits) { s with
        arriving := none
        pktValid := true
        pktChan  := ch
        pktTs    := s.utc
        pktSize  := size
        pktCur   := 0#16
        pktMem   := mem }
  | dataHeld (bits : Arg) : s.pktValid = true →
      Effect s (.data bits)
        { s with arriving := none, fault := .doubleAssign, trace := s.trace ++ [.log .assertDoubleAssign] }
  | startrx (ch : ChanIx) : s.mode = .receiving →
      Effect s (.startrx ch) { s with
        paBias    := false
        bitPinDir := .input
        chan      := ch
        chip      := { s.chip with pins := receivePins s.cfg.chip }
        trace     := s.trace ++ enterActions s.cfg ch }
  | configure : s.mode = .receiving →
      Effect s .configure { s with
        chip  := { s.chip with
          props := s.chip.props.writeBytes (propKey s.cfg.chip.modGroup s.cfg.chip.modStart.toNat)
            [s.cfg.chip.modTypeValue] }
        trace := s.trace ++ [.rxConfigure,
          .cmd (.setProperty s.cfg.chip.modGroup 1#8 s.cfg.chip.modStart [s.cfg.chip.modTypeValue])] }
  | configureFilter : s.mode = .receiving →
      Effect s .configure { s with
        chip  := { s.chip with
          props := (s.chip.props.writeBytes (propKey s.cfg.chip.modGroup s.cfg.chip.modStart.toNat)
            [s.cfg.chip.modTypeValue]).writeBytes (propKey s.cfg.chip.filtGroup s.cfg.chip.filtStart.toNat)
            s.cfg.chip.bt04Coeff.toList }
        trace := s.trace ++ [.rxConfigure,
          .cmd (.setProperty s.cfg.chip.modGroup 1#8 s.cfg.chip.modStart [s.cfg.chip.modTypeValue]),
          .cmd (.setProperty s.cfg.chip.filtGroup 9#8 s.cfg.chip.filtStart s.cfg.chip.bt04Coeff.toList)] }
  | setpwr (level : Byte) (e : PowerEntry) : s.mode = .receiving →
      Effect s (.setpwr level) { s with
        chip  := { s.chip with props := withPower s.cfg e s.chip.props }
        trace := s.trace ++
          [.cmd (.setProperty s.cfg.chip.paGroup 3#8 s.cfg.chip.paStart [e.mode, e.level, e.biasDuty])] }
  | cwtest (ch : ChanIx) (fault : Bool) (e : PowerEntry) (ordinal : Byte) (reported : Bool) : s.mode = .receiving →
      s.pktValid = false →
      Effect s (.cwtest ch fault) { s with
        chan      := ch
        bitPinDir := .output
        paBias    := true
        chip      := ⟨withPower s.cfg e s.chip.props, transmitPins s.cfg.chip⟩
        trace     := s.trace ++ (enterActions s.cfg ch ++ keyActions s.cfg e ++
          startActions s.cfg ordinal s.cfg.chip.txCondCw ++ [.log (.cwStatus ch reported)]) }
  | setProperty (group count start : Byte) (bytes : List Byte) :
      Effect s (.setProperty group count start bytes) (chipSetProperty group count start bytes s)
  | gpioPinCfg (pins : PinMap) : Effect s (.gpioPinCfg pins) (chipGpioPinCfg pins s)
  | startTx (channel condition length delay reps : Byte) :
      Effect s (.startTx channel condition length delay reps) (chipStartTx channel condition length delay reps s)
  | getChipStatus : Effect s .getChipStatus (chipGetStatus s)

/-- The tests of the policy give the statement's words for a start being due. -/
theorem startAllowed_of_policy {s : State} {r n : Rssi}
    (h : s.cfg.testMode = true ∨
      (timeKnown s = true ∧ stale s = false ∧ channelClear r n = true ∧ intervalElapsed s = true)) :
    StartAllowed s r n := by
  rcases h with h | ⟨a, b, c, d⟩
  · exact .inl h
  · have c := of_decide_eq_true c
    refine .inr ⟨by simpa [timeKnown] using a, ?_, by simpa [ccaMargin] using c,
      by simpa [intervalElapsed, sinceLastTx, elapsed] using d⟩
    simpa [stale, packetAge, age] using b

/-- Whatever exec answers with a next state is one of the effects. -/
theorem exec_effect {s t : State} {i : Instr} (h : exec i s = .next t) : Effect s i t := by
  cases i with
  | tick pos rssi nf f =>
    obtain ⟨-, -, (⟨hm, h⟩ | ⟨hm, h⟩)⟩ := execTick_eq_next h
    · rcases tickReceiving_eq_next h with rfl | ⟨hal, (⟨h1, h2, h3, rfl⟩ | ⟨hs, h⟩)⟩
      · exact Effect.tickIdle _ _ _ _ hm
      · have := Effect.tickDiscard (s := s) pos rssi nf f hm hal h1 (by simpa [timeKnown] using h2) (of_decide_eq_true h3)
        rw [discardStale_eq]; simpa [ticked, State.emit, packetAge, age] using this
      · have h' := h
        obtain ⟨e, c, he, hc, (rfl | rfl)⟩ := startTransmitting_eq_next h
        · have := Effect.tickStart (s := s) pos rssi nf f e c.ordinal hm hal (startAllowed_of_policy (s := s) hs) (by
             intro hw; obtain ⟨e2, c2, _, _, h2⟩ := startTransmitting_eq_next_fault (s := ticked pos s) hw h'
             cases f; rfl
             have := congrArg State.mode h2; simp [started, keyed, txStartFailed_eq] at this)
          simpa [started, keyed, ticked, State.emit, keyActions, startActions,
            withPower, powerAddress, PowerEntry.bytes, rxPins_eq, txPins_eq] using this
        · have := Effect.tickRejected (s := s) pos rssi nf f e c.ordinal hm hal (startAllowed_of_policy (s := s) hs) (by
             intro hw; obtain ⟨e2, c2, _, _, h2⟩ := startTransmitting_eq_next_fault (s := ticked pos s) hw h'
             cases f
             have := congrArg State.mode h2; simp [started, keyed, txStartFailed_eq] at this
             rfl)
          simpa [started, keyed, txStartFailed_eq, ticked, State.emit, keyActions, startActions, enterActions,
            withPower, powerAddress, PowerEntry.bytes, rxPins_eq, txPins_eq] using this
    · rcases tickTransmitting_eq_next h with ⟨he, rfl⟩ | ⟨he, b, hb, rfl⟩
      · have := Effect.tickComplete (s := s) pos rssi nf f hm he
        rw [txComplete_eq]; simpa [enterActions, rxPins_eq] using this
      · exact Effect.tickShift _ _ _ _ _ hm he hb
  | slot n =>
    obtain ⟨-, -, (⟨a, b, c, rfl⟩ | ⟨-, rfl⟩)⟩ := execSlot_eq_next h
    · have := Effect.slotRetune (s := s) n a b c
      rw [enterReceive_eq]; simpa [State.emit, enterActions, rxPins_eq] using this
    · exact Effect.slotOnly n
  | utc x => obtain ⟨-, -, rfl⟩ := execUtc_eq_next h; exact Effect.utc x
  | assign ch size =>
    obtain ⟨-, -, -, -, (⟨-, rfl⟩ | ⟨-, rfl⟩)⟩ := execAssign_eq_next h
    · cases hv : s.pktValid with
      | true => rw [assignPacket_held _ _ _ hv]; exact Effect.assignHeld _ _ hv
      | false => rw [assignPacket_empty _ _ _ hv]; have := Effect.assignEmpty ch size hv; simpa [pktMemWith] using this
    · exact Effect.assignHeader _ _ _
  | startrx ch =>
    obtain ⟨-, -, -, hm, rfl⟩ := execStartrx_eq_next h
    have := Effect.startrx (s := s) ch hm
    rw [enterReceive_eq]
    simpa [enterActions, rxPins_eq] using this
  | configure =>
    obtain ⟨-, -, hm, rfl⟩ := execConfigure_eq_next h; unfold sendFilter; split
    · have := Effect.configure hm; simpa [sendModulation, chipSetProperty, State.emit] using this
    · have := Effect.configureFilter hm
      have e : List.take 9 s.cfg.chip.bt04Coeff.toList = s.cfg.chip.bt04Coeff.toList := List.take_of_length_le (by simp)
      simpa [sendModulation, chipSetProperty, State.emit, e] using this
  | setpwr l =>
    obtain ⟨-, -, hm, e, -, rfl⟩ := execSetpwr_eq_next h
    have := Effect.setpwr (s := s) l e hm
    simpa [sendPower, chipSetProperty, withPower, powerAddress, PowerEntry.bytes, State.emit] using this
  | cwtest ch f =>
    obtain ⟨-, -, -, hm, hv, e, c, g, -, -, -, rfl⟩ := execCwtest_eq_next h
    have := Effect.cwtest (s := s) ch f e c.ordinal g hm hv
    simpa [State.emit, carrier, keyed, enterReceive_eq, enterActions, keyActions, startActions,
            withPower, powerAddress, PowerEntry.bytes, rxPins_eq, txPins_eq] using this
  | data b =>
    obtain ⟨-, a, -, (⟨-, rfl⟩ | ⟨-, -, rfl⟩)⟩ := execData_eq_next h
    · exact Effect.dataMore _ _
    · rcases Bool.eq_false_or_eq_true s.pktValid with hv | hv
      · rw [assignPacket_held _ _ _ (by exact hv)]; exact Effect.dataHeld _ hv
      · rw [assignPacket_empty _ _ _ (by exact hv)]; exact Effect.dataLast b _ _ _ hv
  | setProperty g n st bs => obtain ⟨-, h⟩ := unlessStopped_eq_next h; cases h; exact Effect.setProperty _ _ _ _
  | gpioPinCfg p => obtain ⟨-, h⟩ := unlessStopped_eq_next h; cases h; exact Effect.gpioPinCfg _
  | startTx a b c d e => obtain ⟨-, h⟩ := unlessStopped_eq_next h; cases h; exact Effect.startTx _ _ _ _ _
  | getChipStatus => obtain ⟨-, h⟩ := unlessStopped_eq_next h; cases h; exact Effect.getChipStatus

end Sys2Proof.Machine
end

