-- ==== Sys2Proof/Laws/PerInstr.lean ====
section
/-! SUPPORT. Per-instruction laws: the family TableRow says that the wire form of each instruction lies in its row of
spec/opcode_table.json (the row's match and mask for an event word, the command's operation byte for a frame). -/

namespace Sys2Proof.Laws

/-- The match and mask of an event's row in spec/opcode_table.json. -/
def rowOf : Instr → Option (EventWord × EventWord)
  | .tick _ _ _ _ => some (0x0100000000#40, 0xFF7C000000#40)
  | .slot _ => some (0x0200000000#40, 0xFFFFFF0000#40)
  | .utc _ => some (0x0300000000#40, 0xFF00000000#40)
  | .assign _ _ => some (0x0400000000#40, 0xFFFFF00000#40)
  | .startrx _ => some (0x0500000000#40, 0xFFFFFFFFF0#40)
  | .configure => some (0x0600000000#40, 0xFFFFFFFFFF#40)
  | .setpwr _ => some (0x0700000000#40, 0xFFFFFFFF00#40)
  | .cwtest _ _ => some (0x0800000000#40, 0xFF7FFFFFF0#40)
  | .data _ => some (0x8000000000#40, 0xFF00000000#40)
  | .setProperty _ _ _ _ => none
  | .gpioPinCfg _ => none
  | .startTx _ _ _ _ _ => none
  | .getChipStatus => none

/-- The operation byte of a chip command (R73). -/
def opcOf (k : ChipConsts) : Instr → Option Byte
  | .setProperty _ _ _ _ => some k.opcSetProperty
  | .gpioPinCfg _ => some k.opcGpioPinCfg
  | .startTx _ _ _ _ _ => some k.opcStartTx
  | .getChipStatus => some k.opcGetChipStatus
  | .tick _ _ _ _ => none
  | .slot _ => none
  | .utc _ => none
  | .assign _ _ => none
  | .startrx _ => none
  | .configure => none
  | .setpwr _ => none
  | .cwtest _ _ => none
  | .data _ => none

/-- The wire form of `i` lies in its row. -/
def TableRow.Statement (i : Instr) : Prop :=
  ∀ k, match encode k i with
    | .word w => ∃ r, rowOf i = some r ∧ w &&& r.2 = r.1
    | .frame bytes => opcOf k i = bytes.head?

theorem TableRow.tick (pos : BitPos) (rssi nf : Rssi) (fault : Bool) : TableRow.Statement (.tick pos rssi nf fault) := by
  intro k
  refine ⟨_, rfl, BitVec.eq_of_getLsbD_eq fun i hi => ?_⟩
  simp only [eventWord, place, BitVec.getLsbD_and, BitVec.getLsbD_or, BitVec.getLsbD_shiftLeft, BitVec.getLsbD_setWidth]
  interval_cases i <;> simp

theorem TableRow.slot (slot : SlotNo) : TableRow.Statement (.slot slot) := by
  intro k
  refine ⟨_, rfl, BitVec.eq_of_getLsbD_eq fun i hi => ?_⟩
  simp only [eventWord, place, BitVec.getLsbD_and, BitVec.getLsbD_or, BitVec.getLsbD_shiftLeft, BitVec.getLsbD_setWidth]
  interval_cases i <;> simp

theorem TableRow.utc (t : Time) : TableRow.Statement (.utc t) := by
  intro k
  refine ⟨_, rfl, BitVec.eq_of_getLsbD_eq fun i hi => ?_⟩
  simp only [eventWord, BitVec.getLsbD_and, BitVec.getLsbD_or, BitVec.getLsbD_shiftLeft, BitVec.getLsbD_setWidth]
  interval_cases i <;> simp

theorem TableRow.assign (ch : ChanIx) (size : PktLen) : TableRow.Statement (.assign ch size) := by
  intro k
  refine ⟨_, rfl, BitVec.eq_of_getLsbD_eq fun i hi => ?_⟩
  simp only [eventWord, place, BitVec.getLsbD_and, BitVec.getLsbD_or, BitVec.getLsbD_shiftLeft, BitVec.getLsbD_setWidth]
  interval_cases i <;> simp

theorem TableRow.startrx (ch : ChanIx) : TableRow.Statement (.startrx ch) := by
  intro k
  refine ⟨_, rfl, BitVec.eq_of_getLsbD_eq fun i hi => ?_⟩
  simp only [eventWord, place, BitVec.getLsbD_and, BitVec.getLsbD_or, BitVec.getLsbD_shiftLeft, BitVec.getLsbD_setWidth]
  interval_cases i <;> simp

theorem TableRow.configure : TableRow.Statement (.configure) := by
  intro k
  refine ⟨_, rfl, BitVec.eq_of_getLsbD_eq fun i hi => ?_⟩
  simp only [eventWord, BitVec.getLsbD_and, BitVec.getLsbD_or, BitVec.getLsbD_shiftLeft, BitVec.getLsbD_setWidth]
  interval_cases i <;> simp

theorem TableRow.setpwr (level : Byte) : TableRow.Statement (.setpwr level) := by
  intro k
  refine ⟨_, rfl, BitVec.eq_of_getLsbD_eq fun i hi => ?_⟩
  simp only [eventWord, place, BitVec.getLsbD_and, BitVec.getLsbD_or, BitVec.getLsbD_shiftLeft, BitVec.getLsbD_setWidth]
  interval_cases i <;> simp

theorem TableRow.cwtest (ch : ChanIx) (fault : Bool) : TableRow.Statement (.cwtest ch fault) := by
  intro k
  refine ⟨_, rfl, BitVec.eq_of_getLsbD_eq fun i hi => ?_⟩
  simp only [eventWord, place, BitVec.getLsbD_and, BitVec.getLsbD_or, BitVec.getLsbD_shiftLeft, BitVec.getLsbD_setWidth]
  interval_cases i <;> simp

theorem TableRow.data (bits : Arg) : TableRow.Statement (.data bits) := by
  intro k
  refine ⟨_, rfl, BitVec.eq_of_getLsbD_eq fun i hi => ?_⟩
  simp only [eventWord, BitVec.getLsbD_and, BitVec.getLsbD_or, BitVec.getLsbD_shiftLeft, BitVec.getLsbD_setWidth]
  interval_cases i <;> simp

theorem TableRow.setProperty (group count start : Byte) (bytes : List Byte) : TableRow.Statement (.setProperty group count start bytes) := fun _ => rfl

theorem TableRow.gpioPinCfg (pins : PinMap) : TableRow.Statement (.gpioPinCfg pins) := fun _ => rfl

theorem TableRow.startTx (channel condition length delay reps : Byte) : TableRow.Statement (.startTx channel condition length delay reps) := fun _ => rfl

theorem TableRow.getChipStatus : TableRow.Statement (.getChipStatus) := fun _ => rfl

end Sys2Proof.Laws
end

