-- ==== Sys2Proof/Tests/Slice0.lean ====
section
/-! SUPPORT. The model's own tests. Expected results are those of the spec: the vectors S1, S2 and V1 to V111 of
95_test_vectors.md, the examples of 30_encoding.md, or a rule named in the test's docstring. Then, for every obligation with
hypotheses, a witness that meets them. -/

namespace Sys2Proof.Tests

open Sys2Proof Sys2Proof.Machine

/-! ### A small board: the numbers of CFG0, with arbitrary different bytes for the symbolic constants -/

/-- Arbitrary bytes for the chip constants, which the spec leaves open. -/
def consts : ChipConsts where
  opcSetProperty   := 1
  opcGpioPinCfg    := 2
  opcStartTx       := 3
  opcGetChipStatus := 4
  modGroup         := 5
  modStart         := 6
  modTypeValue     := 7
  filtGroup        := 8
  filtStart        := 9
  bt04Coeff        := #v[10, 11, 12, 13, 14, 15, 16, 17, 18]
  paGroup          := 19
  paStart          := 20
  gpiofTxDataIn    := 21
  gpiofRxData      := 22
  gpiofBitclkTx    := 23
  gpiofBitclkRx    := 24
  gpiofRxtxState   := 25
  gpiofSyncDetect  := 26
  gpio0Tx          := 27
  sdoTx            := 28
  gencfgTx         := 29
  gpio0Rx          := 30
  sdoRx            := 31
  gencfgRx         := 32
  txCondNormal     := 33
  txCondCw         := 34
  txRepeat         := 35

/-- CFG0 of the vectors, with 40 packet bits. -/
def cfg0 : Cfg where
  testMode      := false
  filterShaping := .off
  ccaBit        := 100
  maxAge        := 120
  minTxInterval := 60
  txPowerLevel  := 0
  powerTable    := [⟨40, 41, 42⟩, ⟨43, 44, 45⟩, ⟨46, 47, 48⟩]
  channels      := [⟨10, 87, 161975000⟩, ⟨11, 88, 162025000⟩]
  pktMaxBits    := 40
  statusW       := 32
  blinkTxTag    := 9
  chip          := consts

/-- A state after reset under CFG0. -/
def r0 : State := State.resetWith cfg0 zeroDraw zeroPins

/-- B0 of the vectors: four bits 1,0,1,1 held for channel 0. -/
def b0 : State :=
  { r0 with
    utc := 1000, lastTx := 900, bitPos := 99, pktValid := true, pktTs := 1000, pktSize := 4
    pktMem := [true, false, true, true] ++ List.replicate 36 false }

/-- T0 of the vectors: B0 after a successful start. -/
def t0 : State := { b0 with mode := .transmitting, bitPos := 100, bitPinDir := .output, paBias := true }

/-- B0 with no packet held. -/
def e0 : State := { b0 with pktValid := false }

/-- B0 stopped by the fatal assertion. -/
def f0 : State := { b0 with fault := .doubleAssign }

/-- A state waiting for the DATA words of a packet of `size` bits on channel 1, with `got` received. -/
def w0 (size : PktLen) (got : List Arg) (held : Bool) : State :=
  { b0 with pktValid := held, arriving := some ⟨1, size, got⟩ }

/-- The next state, where there is one. -/
def next? : Result → Option State
  | .next s => some s
  | .fault _ => none
  | .refused _ => none

/-- The refusal, where there is one. -/
def refusal? : Result → Option Refusal
  | .refused x => some x
  | .next _ => none
  | .fault _ => none

/-- The actions of one instruction in a state that has emitted none. -/
def actions? (i : Instr) (s : State) : Option (List Action) := (next? (exec i s)).map (·.trace)

/-- `TXCFG` of the vectors, under `consts` and power entry 0. -/
def txcfg : List Action :=
  [.pinMode .output, .cmd (.gpioPinCfg ⟨27, 21, 23, 25, 26, 28, 29⟩), .cmd (.setProperty 19 3 20 [40, 41, 42]),
    .bias true]

/-- `START(o, c)` of the vectors. -/
def start (ordinal condition : Byte) : List Action := [.cmd (.startTx ordinal condition 0 0 35), .cmd .getChipStatus]

/-- `ENTER(ch)` of the vectors. -/
def enter (ch : ChanIx) : List Action :=
  [.bias false, .pinMode .input, .cmd (.gpioPinCfg ⟨30, 22, 24, 25, 26, 31, 32⟩), .rxStartReceiving ch]

/-! ### Decoding: one word per constructor, from the formats R62 to R69 and R74 to R77 -/

/-- R62, V109 and V110: op 01, F in bit 31, pos in [25:16], rssi in [15:8], nf in [7:0]. -/
theorem test_decode_tick :
    decodeWord 0x0183FFFFFF#40 = .ok (.tick 1023 255 255 true) ∧
    decodeWord 0x0100050709#40 = .ok (.tick 5 7 9 false) := by decide

/-- R63 to R65: SLOT, UTC, ASSIGN, DATA. -/
theorem test_decode_slot_utc_assign_data :
    decodeWord 0x02000008C9#40 = .ok (.slot 2249) ∧ decodeWord 0x03FFFFFFFF#40 = .ok (.utc 4294967295) ∧
    decodeWord 0x0400010022#40 = .ok (.assign 1 34) ∧ decodeWord 0x80B38F0F83#40 = .ok (.data 0xB38F0F83) := by decide

/-- R66 to R69: STARTRX, CONFIGURE, SETPWR, CWTEST. -/
theorem test_decode_startrx_configure_setpwr_cwtest :
    decodeWord 0x0500000001#40 = .ok (.startrx 1) ∧ decodeWord 0x0600000000#40 = .ok .configure ∧
    decodeWord 0x0700000002#40 = .ok (.setpwr 2) ∧ decodeWord 0x0880000001#40 = .ok (.cwtest 1 true) := by decide

/-- R74 to R77: the four frames, byte by byte. -/
theorem test_decode_frames :
    decodeFrame consts [1, 19, 3, 20, 40, 41, 42] = .ok (.setProperty 19 3 20 [40, 41, 42]) ∧
    decodeFrame consts [2, 27, 21, 23, 25, 26, 28, 29] = .ok (.gpioPinCfg ⟨27, 21, 23, 25, 26, 28, 29⟩) ∧
    decodeFrame consts [3, 10, 33, 0, 0, 35] = .ok (.startTx 10 33 0 0 35) ∧
    decodeFrame consts [4] = .ok .getChipStatus := by decide

/-- V100 to V103, V108: reserved words. -/
theorem test_decode_reserved :
    decodeWord 0x0900000000#40 = .error (.reservedOp 9) ∧ decodeWord 0x0000000000#40 = .error (.reservedOp 0) ∧
    decodeWord 0x0104640000#40 = .error .nonzeroField ∧ decodeWord 0x0600000001#40 = .error .nonzeroField ∧
    decodeWord 0x0200010000#40 = .error .nonzeroField := by decide

/-- R73: frames that are no command. -/
theorem test_decode_bad_frames :
    decodeFrame consts [] = .error .unknownCommand ∧ decodeFrame consts [5] = .error .unknownCommand ∧
    decodeFrame consts [4, 0] = .error .frameLength ∧ decodeFrame consts [1, 19, 3, 20, 40] = .error .frameLength := by
  decide

/-- The table numbers the bits of a 40-bit item as the event word itself. -/
theorem test_decodeTableWord :
    decodeTableWord 40 0x0100643228 = some (.tick 100 50 40 false) ∧
    decodeTableWord 40 0x80B0000000 = some (.data 0xB0000000) := by decide

/-! ### Well-formedness: for each check a term it refuses -/

/-- R74: the data bytes of SET_PROPERTY are `count` many. -/
theorem smoke_setProperty_count :
    (Instr.setProperty 19 3 20 [40, 41]).wf = false ∧ (Instr.setProperty 19 2 20 [40, 41]).wf = true := by decide

/-- R6: each range of the configuration. -/
theorem smoke_cfg_ranges :
    cfg0.wf = true ∧ { cfg0 with channels := [] }.wf = false ∧
    { cfg0 with channels := List.replicate 17 default }.wf = false ∧ { cfg0 with txPowerLevel := 3 }.wf = false ∧
    { cfg0 with pktMaxBits := 65536 }.wf = false ∧ { cfg0 with statusW := 3 }.wf = false := by decide

/-- R73: two commands with one operation byte are refused. -/
theorem smoke_opcodes :
    consts.opcodesDistinct = true ∧ { consts with opcStartTx := 1 }.opcodesDistinct = false ∧
    { consts with opcGetChipStatus := 2 }.opcodesDistinct = false := by decide

/-! ### Meanings -/

/-- S1a, S1b and S2: the start is allowed (1000 - 900 = 100 >= 60), it is throttled (940 - 900 = 40 < 60), the packet is
stale (1200 - 1000 = 200 > 120). -/
theorem test_tick_receiving :
    (next? (exec (.tick 100 50 40 false) b0)).map (fun t => { t with trace := [], chip := b0.chip }) = some t0 ∧
    actions? (.tick 100 50 40 false) { b0 with utc := 940 } = some [.rxOnBitClock] ∧
    next? (exec (.tick 100 50 40 false) { b0 with utc := 1200 }) = some { b0 with
      utc := 1200, pktValid := false, bitPos := 100
      trace := [.rxOnBitClock, .poolFree, .log (.staleDiscard 200 0)] } := by decide

/-- V24 and V23: ShiftBit with every operand ignored, and TxComplete. -/
theorem test_tick_transmitting :
    next? (exec (.tick 100 255 0 true) t0) = some { t0 with pktCur := 1, txLine := true, trace := [.pinLevel true] } ∧
    next? (exec (.tick 0 0 0 false) { t0 with pktCur := 4, txLine := true, utc := 1001 }) = some { b0 with
      utc := 1001, lastTx := 1001, bitPos := 100, pktValid := false, pktCur := 4, txLine := true
      chip  := ⟨[], ⟨30, 22, 24, 25, 26, 31, 32⟩⟩
      trace := [.blink 9] ++ enter 0 ++ [.log (.txDone 4 0), .poolFree] } := by decide

/-- V30, V31 and V33: SLOT. -/
theorem test_slot :
    next? (exec (.slot 7) { b0 with pktChan := 1 }) = some { b0 with
      pktChan := 1, chan := 1, chip := ⟨[], ⟨30, 22, 24, 25, 26, 31, 32⟩⟩
      trace   := [.rxTimeSlotStarted 7] ++ enter 1 } ∧
    next? (exec (.slot 7) b0) = some { b0 with trace := [.rxTimeSlotStarted 7] } ∧
    next? (exec (.slot 65535) t0) = some { t0 with trace := [.rxTimeSlotStarted 65535] } := by decide

/-- V40, V42, V43: STARTRX. -/
theorem test_startrx :
    next? (exec (.startrx 1) e0) = some { e0 with
      chan := 1, chip := ⟨[], ⟨30, 22, 24, 25, 26, 31, 32⟩⟩, trace := enter 1 } ∧
    refusal? (exec (.startrx 0) t0) = some .whileTransmitting ∧
    refusal? (exec (.startrx 2) b0) = some .channelOutOfRange := by decide

/-- V60 and V63: UTC. -/
theorem test_utc :
    next? (exec (.utc 1000) r0) = some { r0 with utc := 1000 } ∧
    next? (exec (.utc 1001) { t0 with pktCur := 2 }) = some { t0 with utc := 1001, pktCur := 2 } := by decide

/-- V54 and V57: ASSIGN, out of range and with no bit; and `size` beyond the store (R178 (b)). -/
theorem test_assign :
    refusal? (exec (.assign 2 1) e0) = some .channelOutOfRange ∧
    refusal? (exec (.assign 1 41) e0) = some .sizeOutOfRange ∧
    next? (exec (.assign 1 0) e0) = some { e0 with pktValid := true, pktChan := 1, pktSize := 0 } := by decide

/-- V53 and V105: the last word of 34 bits; non-zero padding. -/
theorem test_data :
    (next? (exec (.data 0x40000000) (w0 34 [0xB38F0F83] false))).map
        (fun t => (t.pktSize, t.pktMem.take 4, t.pktMem.drop 32)) =
      some (34, [true, false, true, true], [false, true, false, false, false, false, false, false]) ∧
    refusal? (exec (.data 0xB8000000) (w0 4 [] false)) = some .paddingNotZero := by decide

/-- V51, V104, V106, V107: the double assignment, DATA alone, another event inside a sequence, one of two DATA words before
the input ends, or before a reset. -/
theorem test_data_failures :
    next? (exec (.data 0x80000000) (w0 1 [] true)) =
      some { b0 with fault := .doubleAssign, trace := [.log .assertDoubleAssign] } ∧
    refusal? (exec (.data 0xB0000000) e0) = some .dataOutsideAssign ∧
    refusal? (exec (.slot 7) (w0 4 [] false)) = some .insideAssign ∧
    refusal? (step (w0 33 [0] false)) = some .tooFewDataWords ∧
    refusal? (step { w0 33 [0] false with port := [.rst zeroDraw] }) = some .tooFewDataWords := by decide

/-- V70, V71, V72: CONFIGURE. -/
theorem test_configure :
    actions? .configure r0 = some [.rxConfigure, .cmd (.setProperty 5 1 6 [7])] ∧
    actions? .configure { r0 with cfg := { cfg0 with filterShaping := .bt04 } } =
      some [.rxConfigure, .cmd (.setProperty 5 1 6 [7]),
        .cmd (.setProperty 8 9 9 [10, 11, 12, 13, 14, 15, 16, 17, 18])] ∧
    refusal? (exec .configure t0) = some .whileTransmitting := by decide

/-- V80, V81, V82: SETPWR. -/
theorem test_setpwr :
    actions? (.setpwr 2) b0 = some [.cmd (.setProperty 19 3 20 [46, 47, 48])] ∧
    refusal? (exec (.setpwr 3) b0) = some .levelOutOfRange ∧
    refusal? (exec (.setpwr 0) t0) = some .whileTransmitting := by decide

/-- V90 and V91: CWTEST. -/
theorem test_cwtest :
    actions? (.cwtest 0 false) { e0 with chan := 1 } =
      some (enter 0 ++ txcfg ++ start 10 34 ++ [.log (.cwStatus 0 false)]) ∧
    (next? (exec (.cwtest 0 false) { e0 with chan := 1 })).map (fun t => { t with trace := [], chip := b0.chip }) =
      some { e0 with bitPinDir := .output, paBias := true } ∧
    actions? (.cwtest 1 true) e0 = some (enter 1 ++ txcfg ++ start 11 34 ++ [.log (.cwStatus 1 true)]) := by decide

/-- V92: CWTEST while a packet is held; V93: a tick during the carrier leaves the bias up. -/
theorem test_cwtest_around :
    refusal? (exec (.cwtest 0 false) b0) = some .packetHeld ∧
    next? (exec (.tick 100 0 0 false) { e0 with bitPinDir := .output, paBias := true }) =
      some { e0 with bitPinDir := .output, paBias := true, bitPos := 100, trace := [.rxOnBitClock] } := by decide

/-- R141 and R44: two properties from index 255 on. -/
theorem test_setProperty :
    (next? (exec (.setProperty 19 2 255 [1, 2]) b0)).map
        (fun t => (t.property 19 255, t.property 19 256, t.property 20 0, t.trace)) =
      some (some 1, some 2, none, [.cmd (.setProperty 19 2 255 [1, 2])]) := by decide

/-- R147, R142, R143: the other three commands. -/
theorem test_commands :
    (next? (exec (.gpioPinCfg ⟨1, 2, 3, 4, 5, 6, 7⟩) b0)).map (fun t => (t.chip.pins, t.trace)) =
      some (⟨1, 2, 3, 4, 5, 6, 7⟩, [.cmd (.gpioPinCfg ⟨1, 2, 3, 4, 5, 6, 7⟩)]) ∧
    next? (exec (.startTx 10 33 0 0 35) b0) = some { b0 with trace := [.cmd (.startTx 10 33 0 0 35)] } ∧
    next? (exec .getChipStatus b0) = some { b0 with trace := [.cmd .getChipStatus] } := by decide

/-- R19 and R26: the line is driven only while the pin is an output. -/
theorem test_lines :
    t0.lines = { txData := some false, txOe := 1, paBiasEn := true, nfCh := 0, mode := 1 } ∧
    b0.lines.txData = none := by decide

/-- R78: trace lines. -/
theorem test_trace_lines :
    traceLine (.tick 100 50 40 true) = some "TICK pos=100 rssi=50 nf=40 fault" ∧
    assignLine 1 [true, false, true, true] = "ASSIGN ch=1 bits=1011" := by decide

/-- R79, R216, R217, R177 and R73: the pseudo-events, the reference counter, a run that ended well, a log kind, a frame. -/
theorem test_environment :
    runTicks 2 99 = [.tick 99 0 0 false, .tick 100 0 0 false] ∧ shiftTicks 1 = [.tick 0 0 0 false] ∧
    referencePos 5 (.slot 7) = (0, .slot 7) ∧ referencePos 5 (.tick 0 50 40 false) = (6, .tick 5 50 40 false) ∧
    endedWell (.next b0) = true ∧ endedWell (.next (w0 33 [0] false)) = false ∧ endedWell (.next t0) = false ∧ endedWell (.next f0) = false ∧
    (LogLine.txDone 4 0).kind = 3 ∧ (Cmd.startTx 10 33 0 0 35).frame consts = .frame [3, 10, 33, 0, 0, 35] := by decide

/-! ### Witnesses: concrete states and operands that meet the hypotheses of the obligations, clause by clause -/

/-- B0 with time at which the held packet is one second too old. -/
def stale0 : State := { b0 with utc := 1121 }

/-- T0 with every bit driven. -/
def end0 : State := { t0 with pktCur := 4 }

/-- B0 with the packet on channel 1. -/
def other0 : State := { b0 with pktChan := 1 }

/-- An aligned tick at the last admitted signal strength, with the fault answer `fault`. -/
def tick0 (fault : Bool) : Instr := .tick 100 52 40 fault

/-- The empty packet held in B0. -/
def void0 : State := { b0 with pktSize := 0 }

theorem exec_next_of {i : Instr} {s : State} (h : (next? (exec i s)).isSome = true) : ∃ t, exec i s = .next t := by
  cases hr : exec i s with
  | next t => exact ⟨t, rfl⟩
  | fault f => rw [hr] at h; cases h
  | refused x => rw [hr] at h; cases h

theorem exec_next_with {i : Instr} {s : State} {acts : List Action} (h : actions? i s = some acts) (h0 : s.trace = []) :
    ∃ t, exec i s = .next t ∧ t.trace = s.trace ++ acts := by
  cases hr : exec i s with
  | next t => simp [actions?, hr, next?] at h; exact ⟨t, rfl, by simp [h0, h]⟩
  | fault f => simp [actions?, hr, next?] at h
  | refused x => simp [actions?, hr, next?] at h

theorem witness_Inv_b0 : b0.Inv := by
  constructor
  case arrivingFits => intro a h; cases h
  all_goals decide

theorem witness_Inv_e0 : e0.Inv := by
  constructor
  case arrivingFits => intro a h; cases h
  all_goals decide

theorem witness_Inv_t0 : t0.Inv := by
  constructor
  case arrivingFits => intro a h; cases h
  all_goals decide

theorem witness_Inv_w0 : (w0 33 [0xFFFFFFFF] false).Inv := by
  constructor
  case arrivingFits => intro a h; cases h; decide
  all_goals decide

theorem witness_Ready : Ready b0 ∧ Ready t0 ∧ Ready e0 ∧ Ready void0 := ⟨⟨rfl, rfl⟩, ⟨rfl, rfl⟩, ⟨rfl, rfl⟩, ⟨rfl, rfl⟩⟩

theorem witness_DecodeOfEncodeIsIdentity :
    consts.opcodesDistinct = true ∧ (Instr.setProperty 19 3 20 [40, 41, 42]).wf = true := by decide

theorem witness_EncodeOfDecodeIsIdentity :
    decode consts (.word 0x0183FFFFFF) = .ok (.tick 1023 255 255 true) ∧
    decode consts (.frame [1, 19, 0, 20]) = .ok (.setProperty 19 0 20 []) := by decide

theorem witness_DataWordsCarryPacketBits : (List.replicate 33 true).length < 65536 := by decide

theorem witness_StepRunsDecodedInstruction :
    ({ b0 with port := [.wire (.word 0x0200000007)] } : State).port = .wire (.word 0x0200000007) :: [] ∧
    decode cfg0.chip (.word 0x0200000007) = .ok (.slot 7) ∧ cfg0.chip.opcodesDistinct = true ∧
    (Instr.slot 7).wf = true ∧ encode cfg0.chip (.slot 7) = .word 0x0200000007 := by decide

theorem witness_StepIdleAndReserved :
    b0.port = [] ∧ b0.arriving = none ∧ b0.fault = .none ∧ f0.fault ≠ .none ∧
    ({ f0 with port := [.wire (.word 0)] } : State).port = .wire (.word 0) :: [] ∧
    decode cfg0.chip (.word 0) = .error (.reservedOp 0) := by decide

theorem witness_FetchWordRunsNext :
    decodeWord (BitVec.ofNat 40 0x0200000007) = .ok (.slot 7) ∧
    decodeWord (BitVec.ofNat 40 0x80B0000000) = .ok (.data 0xB0000000) := by decide

/-- Channel NCH, size PKT_MAX_BITS + 1, size PKT_MAX_BITS on channel NCH - 1, size 0 into an empty and a full slot. -/
theorem witness_AssignHeaderOutcomes :
    Ready e0 ∧ Ready b0 ∧ cfg0.nch ≤ (2 : ChanIx).toNat ∧
    ((1 : ChanIx).toNat < cfg0.nch ∧ cfg0.pktMaxBits < (41 : PktLen).toNat) ∧
    ((1 : ChanIx).toNat < cfg0.nch ∧ (40 : PktLen).toNat ≤ cfg0.pktMaxBits ∧ 0 < (40 : PktLen).toNat) ∧
    ((0 : PktLen).toNat = 0 ∧ e0.pktValid = false) ∧ ((0 : PktLen).toNat = 0 ∧ b0.pktValid = true) :=
  ⟨⟨rfl, rfl⟩, ⟨rfl, rfl⟩, by decide, by decide, by decide, by decide, by decide⟩

/-- Of 33 bits: the first of two words; a last word with a padding bit set, and one without, into an empty and a full
slot. -/
theorem witness_DataWordOutcomes :
    (w0 33 [] false).fault = .none ∧ (w0 33 [] false).arriving = some ⟨1, 33, []⟩ ∧
    ([] : List Arg).length + 1 < ((33 : PktLen).toNat + 31) / 32 ∧
    ((33 : PktLen).toNat + 31) / 32 ≤ [(0xFFFFFFFF : Arg)].length + 1 ∧
    paddingZero 33 ([0xFFFFFFFF] ++ [0xC0000000]) = false ∧ paddingZero 33 ([0xFFFFFFFF] ++ [0x80000000]) = true ∧
    (w0 33 [0xFFFFFFFF] false).pktValid = false ∧ (w0 33 [0xFFFFFFFF] true).pktValid = true := by decide

theorem witness_AssignEventHandsPacketOver :
    Ready e0 ∧ e0.pktValid = false ∧ e0.cfg.pktMaxBits ≤ 65535 ∧ (1 : ChanIx).toNat < e0.cfg.nch ∧
    (List.replicate 40 true).length ≤ e0.cfg.pktMaxBits := ⟨⟨rfl, rfl⟩, by decide⟩

theorem witness_DoubleAssignEventFaults :
    Ready t0 ∧ t0.pktValid = true ∧ t0.cfg.pktMaxBits ≤ 65535 ∧ (1 : ChanIx).toNat < t0.cfg.nch ∧
    ([] : List Bool).length ≤ t0.cfg.pktMaxBits := ⟨⟨rfl, rfl⟩, by decide⟩

theorem witness_AssignSequenceNotInterleaved :
    Ready b0 ∧ (w0 33 [] false).fault = .none ∧ (w0 33 [] false).arriving = some ⟨1, 33, []⟩ ∧
    isEvent (.slot 7) = true ∧ ∀ b, Instr.slot 7 ≠ .data b :=
  ⟨⟨rfl, rfl⟩, rfl, rfl, rfl, fun _ h => by cases h⟩

theorem witness_HostEventsFrame :
    (∃ t, exec (.utc 7) b0 = .next t) ∧ (∃ t, exec (.assign 1 0) e0 = .next t) ∧
    (∃ t, exec (.data 0x80000000) (w0 33 [0xFFFFFFFF] true) = .next t) :=
  ⟨exec_next_of (by decide), exec_next_of (by decide), exec_next_of (by decide)⟩

/-- Each of the three conditions fails. -/
theorem witness_UnalignedTickOnlyDelegates :
    Ready b0 ∧ b0.mode = .receiving ∧ ¬ Aligned e0 100 ∧ ¬ Aligned b0 101 ∧ ¬ Aligned other0 100 := by
  refine ⟨⟨rfl, rfl⟩, rfl, ?_, ?_, ?_⟩ <;> (unfold Aligned; decide)

theorem witness_StartAllowed :
    StartAllowed b0 52 40 ∧ StartAllowed { b0 with utc := 1120 } 52 40 ∧ StartAllowed { b0 with lastTx := 940 } 255 250 ∧
    StartAllowed { b0 with utc := 0, cfg := { cfg0 with testMode := true } } 255 0 := by
  unfold StartAllowed NormalModeAllows age elapsed; decide

theorem witness_AlignedTickStartsTransmission :
    Ready b0 ∧ b0.mode = .receiving ∧ 4 ≤ b0.cfg.statusW ∧ Aligned b0 100 ∧ StartAllowed b0 52 40 ∧
    b0.cfg.channels[b0.pktChan.toNat]? = some ⟨10, 87, 161975000⟩ ∧
    b0.cfg.powerTable[b0.cfg.txPowerLevel]? = some ⟨40, 41, 42⟩ :=
  ⟨⟨rfl, rfl⟩, rfl, by decide, ⟨rfl, rfl, rfl⟩, witness_StartAllowed.1, rfl, rfl⟩

theorem witness_StalePacketDiscarded :
    Ready stale0 ∧ stale0.mode = .receiving ∧ stale0.cfg.testMode = false ∧ Aligned stale0 100 ∧ stale0.utc ≠ 0#32 ∧
    age stale0 > stale0.cfg.maxAge.toNat :=
  ⟨⟨rfl, rfl⟩, rfl, rfl, ⟨rfl, rfl, rfl⟩, by decide, by decide⟩

/-- Time unknown; not stale and 13 above the noise floor; not stale and 59 seconds since the last transmission. -/
theorem witness_GateHoldsBack :
    Ready b0 ∧ b0.mode = .receiving ∧ b0.cfg.testMode = false ∧ Aligned b0 100 ∧
    ({ b0 with utc := 0 } : State).utc = 0#32 ∧
    (age b0 ≤ b0.cfg.maxAge.toNat ∧ (53 : Rssi).toNat > (40 : Rssi).toNat + 12) ∧
    elapsed { b0 with lastTx := 941 } < b0.cfg.minTxInterval.toNat :=
  ⟨⟨rfl, rfl⟩, rfl, rfl, ⟨rfl, rfl, rfl⟩, rfl, by decide, by decide⟩

/-- A start: the mode changes and START_TX carries the packet condition code. -/
theorem witness_TransmissionOnlyThroughGate :
    isEvent (tick0 false) = true ∧ b0.mode = .receiving ∧ b0.cfg.chip.txCondNormal ≠ b0.cfg.chip.txCondCw ∧
    (∃ t, exec (tick0 false) b0 = .next t ∧ t.trace = b0.trace ++ ([.rxOnBitClock] ++ txcfg ++ start 10 33)) ∧
    (next? (exec (tick0 false) b0)).map (·.mode) = some .transmitting ∧
    StartsWithCondition ([.rxOnBitClock] ++ txcfg ++ start 10 33) b0.cfg.chip.txCondNormal :=
  ⟨by decide, by decide, by decide, exec_next_with (by decide) rfl, by decide, 10, 0, 0, 35,
    by decide⟩

theorem witness_StalePacketNeverTransmitted :
    stale0.cfg.testMode = false ∧ age stale0 > stale0.cfg.maxAge.toNat ∧
    (∃ t, exec (.tick 100 52 40 false) stale0 = .next t ∧
      t.trace = stale0.trace ++ [.rxOnBitClock, .poolFree, .log (.staleDiscard 121 0)]) ∧
    stale0.mode = .receiving ∧ Aligned stale0 100 ∧ stale0.utc ≠ 0#32 :=
  ⟨by decide, by decide, exec_next_with (by decide) rfl, rfl, ⟨rfl, rfl, rfl⟩, by decide⟩

theorem witness_FaultBitEndsInReceiving :
    4 ≤ b0.cfg.statusW ∧
    (∃ t, exec (.tick 100 52 40 true) b0 = .next t ∧
      t.trace = b0.trace ++ ([.rxOnBitClock] ++ txcfg ++ start 10 33 ++ [.log (.txStartFailed 0)] ++ enter 0)) ∧
    Action.cmd .getChipStatus ∈
      [.rxOnBitClock] ++ txcfg ++ start 10 33 ++ [.log (.txStartFailed 0)] ++ enter 0 :=
  ⟨by decide, exec_next_with (by decide) rfl, by simp [start]⟩

/-- A tick without GET_CHIP_STATUS; an unaligned one; aligned ones in TRANSMITTING, in test mode, with time unknown, stale. -/
theorem witness_UnconsumedAnswersIgnored :
    (∃ t, exec (.tick 100 0 0 true) e0 = .next t ∧ t.trace = e0.trace ++ [.rxOnBitClock]) ∧
    Action.cmd .getChipStatus ∉ [Action.rxOnBitClock] ∧ ¬ Aligned b0 101 ∧
    (Aligned t0 100 ∧ t0.mode = .transmitting) ∧
    (Aligned { b0 with cfg := { cfg0 with testMode := true } } 100) ∧
    (Aligned { b0 with utc := 0 } 100) ∧ (Aligned stale0 100 ∧ age stale0 > stale0.cfg.maxAge.toNat) :=
  ⟨exec_next_with (by decide) rfl, by decide, by unfold Aligned; decide, by unfold Aligned; decide,
    by unfold Aligned; decide, by unfold Aligned; decide, by unfold Aligned; decide⟩

theorem witness_ShiftDrivesOneBit :
    Ready t0 ∧ t0.mode = .transmitting ∧ t0.pktCur ≠ t0.pktSize ∧ t0.pktMem[t0.pktCur.toNat]? = some true :=
  ⟨⟨rfl, rfl⟩, by decide⟩

theorem witness_EndOfFrameCompletes : Ready end0 ∧ end0.mode = .transmitting ∧ end0.pktCur = end0.pktSize :=
  ⟨⟨rfl, rfl⟩, by decide⟩

/-- Four ticks with a SLOT and a UTC between them drive the four bits of T0. -/
theorem witness_TransmissionShiftsBitsInOrder :
    let events : List Instr := [.tick 0 0 0 false, .slot 7, .tick 1 2 3 true, .utc 5, tick0 false, tick0 true]
    Ready t0 ∧ t0.mode = .transmitting ∧ t0.pktSize.toNat ≤ t0.pktMem.length ∧
    t0.pktCur.toNat + events.countP isTick ≤ t0.pktSize.toNat ∧ events.all isNotification = true :=
  ⟨⟨rfl, rfl⟩, by decide⟩

/-- The packet of four bits, and the empty packet. -/
theorem witness_TransmissionTakesSizePlusTwoTicks :
    Ready b0 ∧ b0.Inv ∧ b0.mode = .receiving ∧ Aligned b0 100 ∧ StartAllowed b0 52 40 ∧
    (List.replicate 5 (tick0 true)).length = b0.pktSize.toNat + 1 ∧ (List.replicate 5 (tick0 true)).all isTick = true ∧
    (List.replicate 1 (tick0 true)).length = void0.pktSize.toNat + 1 :=
  ⟨⟨rfl, rfl⟩, witness_Inv_b0, rfl, ⟨rfl, rfl, rfl⟩, witness_StartAllowed.1, by decide, by decide, by decide⟩

theorem witness_TickFrame :
    (∃ t, exec (tick0 false) b0 = .next t) ∧ b0.mode = .receiving ∧ (∃ t, exec (tick0 false) t0 = .next t) ∧
    t0.mode = .transmitting := ⟨exec_next_of (by decide), rfl, exec_next_of (by decide), rfl⟩

theorem witness_SlotRetunesToPacketChannel :
    Ready other0 ∧ (other0.mode = .receiving ∧ other0.pktValid = true ∧ other0.pktChan ≠ other0.chan) ∧ Ready b0 ∧
    ¬ (b0.mode = .receiving ∧ b0.pktValid = true ∧ b0.pktChan ≠ b0.chan) := ⟨⟨rfl, rfl⟩, by decide, ⟨rfl, rfl⟩, by decide⟩

/-- Channel NCH - 1 in RECEIVING, channel NCH, channel NCH - 1 in TRANSMITTING: STARTRX and CWTEST. -/
theorem witness_StartrxEntersReceive :
    Ready b0 ∧ Ready t0 ∧ ((1 : ChanIx).toNat < b0.cfg.nch ∧ b0.mode = .receiving) ∧ b0.cfg.nch ≤ (2 : ChanIx).toNat ∧
    ((1 : ChanIx).toNat < t0.cfg.nch ∧ t0.mode = .transmitting) :=
  ⟨⟨rfl, rfl⟩, ⟨rfl, rfl⟩, by decide, by decide, by decide⟩

theorem witness_SlotEventsFrame :
    (∃ t, exec (.slot 7) other0 = .next t) ∧ (∃ t, exec (.startrx 1) b0 = .next t) :=
  ⟨exec_next_of (by decide), exec_next_of (by decide)⟩

theorem witness_ConfigureSendsModulation :
    Ready r0 ∧ (r0.mode = .receiving ∧ r0.cfg.filterShaping = .off) ∧
    ({ r0 with cfg := { cfg0 with filterShaping := .bt04 } } : State).cfg.filterShaping = .bt04 ∧
    Ready t0 ∧ t0.mode = .transmitting := ⟨⟨rfl, rfl⟩, by decide, rfl, ⟨rfl, rfl⟩, rfl⟩

/-- Level NPWR - 1, level NPWR, level NPWR - 1 in TRANSMITTING. -/
theorem witness_SetpwrSendsPowerEntry :
    Ready b0 ∧ (b0.mode = .receiving ∧ b0.cfg.powerTable[(2 : Byte).toNat]? = some ⟨46, 47, 48⟩) ∧
    b0.cfg.npwr ≤ (3 : Byte).toNat ∧ Ready t0 ∧ ((2 : Byte).toNat < t0.cfg.npwr ∧ t0.mode = .transmitting) :=
  ⟨⟨rfl, rfl⟩, by decide, by decide, ⟨rfl, rfl⟩, by decide⟩

theorem witness_CwtestRaisesCarrier :
    Ready e0 ∧ e0.mode = .receiving ∧ 4 ≤ e0.cfg.statusW ∧ e0.pktValid = false ∧
    e0.cfg.channels[(1 : ChanIx).toNat]? = some ⟨11, 88, 162025000⟩ ∧
    e0.cfg.powerTable[e0.cfg.txPowerLevel]? = some ⟨40, 41, 42⟩ := ⟨⟨rfl, rfl⟩, by decide⟩

theorem witness_CwtestRaisesCarrier_refused :
    Ready b0 ∧ Ready t0 ∧ b0.cfg.nch ≤ (2 : ChanIx).toNat ∧ ((1 : ChanIx).toNat < t0.cfg.nch ∧ t0.mode = .transmitting) ∧
    ((1 : ChanIx).toNat < b0.cfg.nch ∧ b0.mode = .receiving ∧ b0.pktValid = true) :=
  ⟨⟨rfl, rfl⟩, ⟨rfl, rfl⟩, by decide, by decide, by decide⟩

/-- The addresses next to the stored bytes lie outside them. -/
theorem witness_ChipSetupFrame :
    (∃ t, exec .configure r0 = .next t) ∧ (∃ t, exec (.setpwr 2) b0 = .next t) ∧
    propKey 5 6 + 1 ≠ propKey cfg0.chip.modGroup cfg0.chip.modStart.toNat ∧ propKey 19 19 < powerAddress cfg0 ∧
    powerAddress cfg0 + 3 ≤ propKey 19 23 := ⟨exec_next_of (by decide), exec_next_of (by decide), by decide⟩

theorem witness_CwtestFrame :
    (∃ t, exec (.cwtest 1 true) e0 = .next t) ∧ powerAddress cfg0 + 3 ≤ propKey 19 23 :=
  ⟨exec_next_of (by decide), by decide⟩

/-- Two bytes from index 255 on; the neighbours lie outside. -/
theorem witness_SetPropertyWritesProperties :
    b0.fault = .none ∧ ([1, 2] : List Byte).length = (2 : Byte).toNat ∧ 1 < (2 : Byte).toNat ∧
    254 < (255 : Byte).toNat ∧ (255 : Byte).toNat + (2 : Byte).toNat ≤ 257 ∧ 257 < 512 := by decide

theorem witness_ChipCommands : b0.fault = .none ∧ (w0 33 [] true).fault = .none := by decide

theorem witness_StoppedBlockHasNoStep :
    f0.fault ≠ .none ∧
    ({ f0 with port := [.wire (.word 0x0200000007)] } : State).port = .wire (.word 0x0200000007) :: [] := by decide

/-- The stopped block and a running one with no sequence in progress; a channel draw inside the table and one outside it; the
last cell of PKTMEM. -/
theorem witness_ResetInputResets :
    f0.fault ≠ .none ∧ b0.arriving = none ∧ 39 < f0.cfg.pktMaxBits ∧
    ({ f0 with port := [.rst { zeroDraw with chan := 1 }] } : State).port = .rst { zeroDraw with chan := 1 } :: [] ∧
    1 ≤ f0.cfg.nch ∧ ({ zeroDraw with chan := 1 } : ResetDraw).chan.toNat < f0.cfg.nch ∧
    ¬ ({ zeroDraw with chan := 2 } : ResetDraw).chan.toNat < f0.cfg.nch := by decide

theorem witness_InvariantAtReset : cfg0.wf = true := by decide

theorem witness_StepKeepsInvariant :
    t0.Inv ∧ ∃ t, step t0 = .next t := ⟨witness_Inv_t0, t0, rfl⟩

/-- Both sides of the equivalence occur. -/
theorem witness_InstructionRunsIffAdmitted :
    b0.Inv ∧ admitted (tick0 true) b0 = true ∧ admitted (.cwtest 0 false) b0 = false ∧
    (w0 33 [0xFFFFFFFF] false).Inv ∧ admitted (.data 0x80000000) (w0 33 [0xFFFFFFFF] false) = true ∧
    admitted (.slot 7) (w0 33 [0xFFFFFFFF] false) = false :=
  ⟨witness_Inv_b0, by decide, by decide, witness_Inv_w0, by decide, by decide⟩

theorem witness_BiasOnlyInTransmitKept :
    b0.Inv ∧ BiasOnlyInTransmit b0 ∧ (∀ ch f, tick0 false ≠ .cwtest ch f) ∧ (∃ t, exec (tick0 false) b0 = .next t) ∧
    ∃ t, exec (.startrx 1) b0 = .next t :=
  ⟨witness_Inv_b0, by unfold BiasOnlyInTransmit; decide, (fun _ _ h => by cases h),
    exec_next_of (by decide), exec_next_of (by decide)⟩

theorem witness_LastTxWrittenOnlyAtCompletion :
    (∃ t, exec (tick0 false) end0 = .next t) ∧ isTick (tick0 false) = true ∧ end0.mode = .transmitting ∧
    end0.pktCur = end0.pktSize := ⟨exec_next_of (by decide), by decide⟩

theorem witness_HeldPacketNeverOverwritten :
    t0.Inv ∧ t0.pktValid = true ∧ (∃ t, exec (tick0 false) t0 = .next t) ∧
    (∃ t, exec (.assign 1 0) t0 = .next t) := ⟨witness_Inv_t0, rfl, exec_next_of (by decide), exec_next_of (by decide)⟩

/-- Released by completion, released by age, and kept. -/
theorem witness_PacketReleasedTwoWays :
    (∃ t, exec (tick0 false) end0 = .next t ∧
      t.trace = end0.trace ++ ([.blink 9] ++ enter 0 ++ [.log (.txDone 4 0), .poolFree])) ∧
    (∃ t, exec (tick0 false) stale0 = .next t ∧
      t.trace = stale0.trace ++ [.rxOnBitClock, .poolFree, .log (.staleDiscard 121 0)]) ∧
    (next? (exec (tick0 false) end0)).map (·.pktValid) = some false ∧
    (next? (exec (tick0 false) stale0)).map (·.pktValid) = some false ∧
    (next? (exec (.slot 7) b0)).map (·.pktValid) = some true :=
  ⟨exec_next_with (by decide) rfl, exec_next_with (by decide) rfl, by decide⟩

theorem witness_TransmissionLeftOnlyAtEndOfFrame :
    end0.mode = .transmitting ∧ (next? (exec (tick0 false) end0)).map (·.mode) = some .receiving := by decide

theorem witness_ChanWrittenOnlyByEnterReceive :
    (∃ t, exec (.startrx 1) b0 = .next t ∧ t.trace = b0.trace ++ enter 1) ∧
    (next? (exec (.startrx 1) b0)).map (·.chan) = some 1 ∧ b0.chan = 0 := ⟨exec_next_with (by decide) rfl, by decide⟩

/-- CWTEST has both a START_TX and an RxStartReceiving; a START_TX with the bias down is out of order. -/
theorem witness_BiasOrderedInsideEvent :
    isEvent (.cwtest 0 false) = true ∧
    (∃ t, exec (.cwtest 0 false) e0 = .next t ∧
      t.trace = e0.trace ++ (enter 0 ++ txcfg ++ start 10 34 ++ [.log (.cwStatus 0 false)])) ∧
    biasOrdered none (enter 0 ++ start 10 34) = false ∧ biasOrdered none (txcfg ++ [.rxStartReceiving 0]) = false :=
  ⟨rfl, exec_next_with (by decide) rfl, by decide, by decide⟩

/-- One of the two DATA words of 33 bits, ended by nothing, by reset and by a SLOT; and the header alone. -/
theorem witness_TooFewDataWordsRefused :
    Ready e0 ∧ (1 : ChanIx).toNat < e0.cfg.nch ∧ (33 : PktLen).toNat ≤ e0.cfg.pktMaxBits ∧
    [(0 : Arg)].length < ((33 : PktLen).toNat + 31) / 32 ∧ ([] : List Arg).length < ((1 : PktLen).toNat + 31) / 32 ∧
    e0.port = [] ∧ ({ e0 with port := [.rst zeroDraw] } : State).port = .rst zeroDraw :: [] ∧
    ({ e0 with port := [.wire (.word 0x0200000007)] } : State).port = .wire (.word 0x0200000007) :: [] ∧
    decode cfg0.chip (.word 0x0200000007) = .ok (.slot 7) ∧ isEvent (.slot 7) = true ∧
    ∀ b, Instr.slot 7 ≠ .data b :=
  ⟨⟨rfl, rfl⟩, by decide, by decide, by decide, by decide, rfl, rfl, rfl, by decide, rfl, fun _ h => by cases h⟩

theorem witness_OutputsAreReplayOfActions : ∃ t, exec (.cwtest 0 false) e0 = .next t := exec_next_of (by decide)

theorem witness_ConfigurationNeverWritten : ∃ t, step { b0 with port := [.wire (.word 0x0200000007)] } = .next t :=
  ⟨_, rfl⟩

end Sys2Proof.Tests
end

/-! ### Fields of an event word (30_encoding.md R60, R61) -/

namespace Sys2Proof

@[simp] theorem opOf_eventWord (op : Byte) (arg : Arg) : opOf (eventWord op arg) = op := by
  apply BitVec.eq_of_getLsbD_eq
  intro i hi
  have hop : 32 + i < 40 := by omega
  simp [opOf, eventWord, hi, hop]

@[simp] theorem getElem_eventWord (op : Byte) (arg : Arg) {i : Nat} (h : i < 32) :
    (eventWord op arg)[i] = arg[i] := by
  simp [eventWord, h]

@[simp] theorem extractLsb'_eventWord (op : Byte) (arg : Arg) {lo len : Nat} (h : lo + len ≤ 32) :
    (eventWord op arg).extractLsb' lo len = arg.extractLsb' lo len := by
  apply BitVec.eq_of_getLsbD_eq
  intro i hi
  have harg : lo + i < 32 := by omega
  have hword : lo + i < 40 := by omega
  simp [hi, harg, hword]

@[simp] theorem argOf_eventWord (op : Byte) (arg : Arg) : argOf (eventWord op arg) = arg := by
  simp [argOf]

@[simp] theorem zeroField_eventWord (op : Byte) (arg : Arg) {lo len : Nat} (h : lo + len ≤ 32) :
    zeroField (eventWord op arg) lo len = (arg.extractLsb' lo len == 0#len) := by
  rw [zeroField, extractLsb'_eventWord op arg h]

@[simp] theorem getElem_place {n : Nat} (lo : Nat) (x : BitVec n) {i : Nat} (h : i < 32) :
    (place lo x)[i] = (decide (lo ≤ i) && x.getLsbD (i - lo)) := by
  by_cases hlo : lo ≤ i <;> simp [place, hlo, Nat.not_lt.mpr, Nat.lt_of_not_le]

@[simp] theorem extractLsb'_place_same {n lo : Nat} (x : BitVec n) (h : lo + n ≤ 32) :
    (place lo x).extractLsb' lo n = x := by
  apply BitVec.eq_of_getLsbD_eq
  intro i hi
  have hplace : lo + i < 32 := by omega
  simp [hi, hplace]

@[simp] theorem extractLsb'_place_disjoint {n lo lo' len : Nat} (x : BitVec n) (hword : lo' + len ≤ 32)
    (h : lo + n ≤ lo' ∨ lo' + len ≤ lo) : (place lo x).extractLsb' lo' len = 0#len := by
  apply BitVec.eq_of_getLsbD_eq
  intro i hi
  have hplace : lo' + i < 32 := by omega
  have hout : lo ≤ lo' + i → x.getLsbD (lo' + i - lo) = false := fun hlo => BitVec.getLsbD_of_ge _ _ (by omega)
  simpa [hi, hplace] using hout

/-! ### The decoder inverts the encoder -/

/-- The four operation bytes are told apart (log entry 16), in the order in which the decoder asks for them. -/
theorem opcodes_ne {k : ChipConsts} (hk : k.opcodesDistinct = true) :
    k.opcGpioPinCfg ≠ k.opcSetProperty ∧
    (k.opcStartTx ≠ k.opcSetProperty ∧ k.opcStartTx ≠ k.opcGpioPinCfg) ∧
    (k.opcGetChipStatus ≠ k.opcSetProperty ∧ k.opcGetChipStatus ≠ k.opcGpioPinCfg ∧
      k.opcGetChipStatus ≠ k.opcStartTx) := by
  simp only [ChipConsts.opcodesDistinct, Bool.and_eq_true, decide_eq_true_eq] at hk
  obtain ⟨⟨⟨⟨⟨hpg, hps⟩, hpc⟩, hgs⟩, hgc⟩, hsc⟩ := hk
  exact ⟨hpg.symm, ⟨hps.symm, hgs.symm⟩, hpc.symm, hgc.symm, hsc.symm⟩

/-- An event needs no premise: its operation code is fixed by R61, and its fields lie side by side in the argument. A chip
command is recognised by an operation byte of the configuration. -/
theorem decode_encode {k : ChipConsts} {i : Instr} (hk : k.opcodesDistinct = true) (hi : i.wf = true) :
    decode k (encode k i) = .ok i := by
  obtain ⟨hgpio, hstart, hstatus⟩ := opcodes_ne hk
  cases i with
  | tick pos rssi nf fault => simp [encode, decode, decodeWord, BitVec.extractLsb'_or]
  | slot slot => simp [encode, decode, decodeWord]
  | utc t => simp [encode, decode, decodeWord]
  | assign ch size => simp [encode, decode, decodeWord, BitVec.extractLsb'_or]
  | startrx ch => simp [encode, decode, decodeWord]
  | configure => rfl
  | setpwr level => simp [encode, decode, decodeWord]
  | cwtest ch fault => simp [encode, decode, decodeWord, BitVec.extractLsb'_or]
  | data bits => simp [encode, decode, decodeWord]
  | setProperty group count start bytes => simpa [encode, decode, decodeFrame, Instr.wf] using hi
  | gpioPinCfg pins => simp [encode, decode, decodeFrame, PinMap.bytes, hgpio]
  | startTx channel condition length delay reps => simp [encode, decode, decodeFrame, hstart]
  | getChipStatus => simp [encode, decode, decodeFrame, hstatus]

end Sys2Proof

/-! ### The step (00_scope.md R4, R5, R7) -/

namespace Sys2Proof.Machine

theorem step_of_decode {s : State} {x : Wire} {rest : List Input} {i : Instr} (hp : s.port = .wire x :: rest)
    (hd : decode s.cfg.chip x = .ok i) : step s = exec i { s with port := rest } := by
  simp only [step, stepWith, hp, hd]

/-- Settles O7: fetching runs what the decoder reads, and the decoder inverts the encoder. -/
theorem stepRunsDecodedInstruction : Obligations.StepRunsDecodedInstruction := by
  unfold Obligations.StepRunsDecodedInstruction
  exact ⟨fun _ _ _ _ hp hd => step_of_decode hp hd,
    fun _ _ _ hk hi hp => step_of_decode hp (decode_encode hk hi)⟩

theorem Effect.cfg_eq {s t : State} {i : Instr} (h : Effect s i t) : t.cfg = s.cfg := by
  cases h <;> rfl

theorem exec_cfg_eq {s t : State} {i : Instr} (h : exec i s = .next t) : t.cfg = s.cfg := (exec_effect h).cfg_eq

/-- Settles O58: a step holds, resets or runs an instruction, and no effect of an instruction writes `cfg`. -/
theorem configurationNeverWritten : Obligations.ConfigurationNeverWritten := by
  unfold Obligations.ConfigurationNeverWritten
  intro s t h
  rcases step_eq_next h with ⟨-, -, rfl⟩ | ⟨d, rest, -, -, rfl⟩ | ⟨x, rest, i, -, -, hexec⟩
  · rfl
  · exact applyReset_cfg d { s with port := rest }
  · exact exec_cfg_eq (s := { s with port := rest }) hexec

end Sys2Proof.Machine

/-! ### The invariant (10_state.md R10, R27, R28, R32)

One rule per operation: an operation is shown to keep `State.Inv` by naming the clauses it could break; the other clauses are
those of the state before it. -/

namespace Sys2Proof.Machine

theorem resetWith_inv {c : Cfg} (d : ResetDraw) (p : PinMap) (hc : c.wf = true) : (State.resetWith c d p).Inv where
  cfgInRange := hc
  chanInTable := by
    have hn : 1 ≤ c.nch := by simp only [Cfg.wf, Bool.and_eq_true, decide_eq_true_eq] at hc; omega
    exact applyReset_chan_lt d (State.resetWith c d p) hn
  pktChanInTable := nofun
  sizeFits := nofun
  cursorFits := nofun
  cursorZero := nofun
  memLength := resetWith_memLength c d p
  txHoldsPacket := nofun
  txOnChannel := nofun
  txKeyed := nofun
  arrivingFits := nofun
  propsCanonical := List.Pairwise.nil

theorem board_wf : board.wf = true := rfl

/-- Settles O47. -/
theorem invariantAtReset : Obligations.InvariantAtReset := by
  unfold Obligations.InvariantAtReset
  exact ⟨fun _ d p hc => resetWith_inv d p hc, resetWith_inv zeroDraw zeroPins board_wf⟩

namespace State.Inv

variable {s : State}

theorem applyReset (hi : s.Inv) (d : ResetDraw) : (applyReset d s).Inv :=
  { resetWith_inv d s.chip.pins hi.cfgInRange with propsCanonical := hi.propsCanonical }

theorem emit (hi : s.Inv) (a : Action) : (s.emit a).Inv := { hi with }

theorem withUtc (hi : s.Inv) (x : Time) : State.Inv { s with utc := x } := { hi with }

theorem withPort (hi : s.Inv) (p : List Input) : State.Inv { s with port := p } := { hi with }

theorem ticked (hi : s.Inv) (pos : BitPos) : (ticked pos s).Inv := { hi with }

theorem raiseAssert (hi : s.Inv) (code : FaultCode) : (raiseAssert code s).Inv := { hi with }

theorem chipSetProperty (hi : s.Inv) (g n st : Byte) (bs : List Byte) : (chipSetProperty g n st bs s).Inv :=
  { hi with propsCanonical := chipSetProperty_wf g n st bs hi.propsCanonical }

theorem chipGpioPinCfg (hi : s.Inv) (p : PinMap) : (chipGpioPinCfg p s).Inv := { hi with }

theorem withArriving (hi : s.Inv) {ar : Option Arriving}
    (har : ∀ a, ar = some a →
      a.ch.toNat < s.cfg.nch ∧ a.size.toNat ≤ s.cfg.pktMaxBits ∧ a.got.length < dataWordCount a.size) :
    State.Inv { s with arriving := ar } :=
  { hi with arrivingFits := har }

theorem enterReceive (hi : s.Inv) {ch : ChanIx} (hm : s.mode = .receiving) (hch : ch.toNat < s.cfg.nch) :
    (enterReceive ch s).Inv := by
  have hmode : s.mode ≠ .transmitting := by simp [hm]
  rw [enterReceive_eq]
  exact { hi with
    chanInTable := hch
    txOnChannel := fun h => absurd h hmode
    txKeyed := fun h => absurd h hmode }

theorem keyed (hi : s.Inv) (e : PowerEntry) : (keyed e s).Inv :=
  { hi with
    txKeyed := fun _ => ⟨rfl, rfl⟩
    propsCanonical := keyed_wf e hi.propsCanonical }

/-- A start on the tuned channel of a held packet. -/
theorem started (hi : s.Inv) (e : PowerEntry) (c : Channel) (hv : s.pktValid = true) (hch : s.pktChan = s.chan) :
    (started e c s).Inv :=
  { hi with
    cursorZero := fun _ h => Mode.noConfusion h
    txHoldsPacket := fun _ => hv
    txOnChannel := fun _ => hch.symm
    txKeyed := fun _ => ⟨rfl, rfl⟩
    propsCanonical := keyed_wf e hi.propsCanonical }

/-- A rejected start, from RECEIVING: the cursor is still 0. -/
theorem txStartFailed_started (hi : s.Inv) (e : PowerEntry) (c : Channel) (hm : s.mode = .receiving) :
    (txStartFailed (Machine.started e c s)).Inv :=
  { hi with
    cursorZero := fun hv _ => hi.cursorZero hv hm
    txHoldsPacket := nofun
    txOnChannel := nofun
    txKeyed := nofun
    propsCanonical := keyed_wf e hi.propsCanonical }

theorem discardStale (hi : s.Inv) (hm : s.mode = .receiving) : (discardStale s).Inv :=
  have hmode : s.mode ≠ .transmitting := by simp [hm]
  { hi with
    pktChanInTable := nofun
    sizeFits := nofun
    cursorFits := nofun
    cursorZero := nofun
    txHoldsPacket := fun h => absurd h hmode
    txOnChannel := fun h => absurd h hmode
    txKeyed := fun h => absurd h hmode }

theorem txComplete (hi : s.Inv) (hm : s.mode = .transmitting) : (txComplete s).Inv :=
  { hi with
    chanInTable := hi.pktChanInTable (hi.txHoldsPacket hm)
    pktChanInTable := nofun
    sizeFits := nofun
    cursorFits := nofun
    cursorZero := nofun
    txHoldsPacket := nofun
    txOnChannel := nofun
    txKeyed := nofun }

/-- Before end-of-frame the cursor lies below the size, so one more is no wrap and no overrun. -/
theorem cursor_succ (hi : s.Inv) (hv : s.pktValid = true) (hne : s.pktCur ≠ s.pktSize) :
    s.pktCur.toNat < s.pktSize.toNat ∧ (s.pktCur + 1#16).toNat = s.pktCur.toNat + 1 := by
  have hle := hi.cursorFits hv
  have hnat : s.pktCur.toNat ≠ s.pktSize.toNat := fun h => hne (BitVec.eq_of_toNat_eq h)
  have hlt : s.pktSize.toNat < 2 ^ 16 := s.pktSize.isLt
  rw [BitVec.toNat_add_of_lt (by simp; omega)]
  exact ⟨by omega, rfl⟩

theorem shifted (hi : s.Inv) (b : Bool) (tr : List Action) (hm : s.mode = .transmitting) (hne : s.pktCur ≠ s.pktSize) :
    State.Inv { s with pktCur := s.pktCur + 1#16, txLine := b, trace := tr } :=
  have hmode : s.mode ≠ .receiving := by simp [hm]
  { hi with
    cursorFits := fun hv => by
      obtain ⟨hlt, hsucc⟩ := hi.cursor_succ hv hne
      exact hsucc ▸ hlt
    cursorZero := fun _ h => absurd h hmode }

/-- A hand-over with operands in range, into the empty slot or onto a held packet. -/
theorem assignPacket (hi : s.Inv) {ch : ChanIx} {size : PktLen} {bits : List Bool} (hch : ch.toNat < s.cfg.nch)
    (hsize : size.toNat ≤ s.cfg.pktMaxBits) (hbits : bits.length = size.toNat) : (assignPacket ch size bits s).Inv := by
  cases hv : s.pktValid with
  | true => rw [assignPacket_held ch size bits hv]; exact hi.raiseAssert .doubleAssign
  | false =>
    have hmode : s.mode ≠ .transmitting := fun h => by simp [hi.txHoldsPacket h] at hv
    have hfit : bits.length ≤ s.pktMem.length := by rw [hi.memLength, hbits]; exact hsize
    rw [assignPacket_empty ch size bits hv]
    exact { hi with
      pktChanInTable := fun _ => hch
      sizeFits := fun _ => hsize
      cursorFits := fun _ => Nat.zero_le _
      cursorZero := fun _ _ => rfl
      memLength := (pktMemWith_length hfit).trans hi.memLength
      txHoldsPacket := fun _ => rfl
      txOnChannel := fun h => absurd h hmode
      txKeyed := fun h => absurd h hmode }

end State.Inv

/-! ### Each instruction keeps the invariant -/

section

variable {s t : State}

theorem tickReceiving_keeps_inv {pos : BitPos} {rssi nf : Rssi} {fault : Bool} (hi : s.Inv) (hm : s.mode = .receiving)
    (h : tickReceiving pos rssi nf fault s = .next t) : t.Inv := by
  have hi' := hi.ticked pos
  rcases tickReceiving_eq_next h with rfl | ⟨⟨hv, -, hch⟩, ⟨-, -, -, rfl⟩ | ⟨-, hs⟩⟩
  · exact hi'
  · exact hi'.discardStale hm
  · obtain ⟨e, c, -, -, rfl | rfl⟩ := startTransmitting_eq_next hs
    · exact hi'.started e c hv hch
    · exact hi'.txStartFailed_started e c hm

theorem tickTransmitting_keeps_inv (hi : s.Inv) (hm : s.mode = .transmitting) (h : tickTransmitting s = .next t) :
    t.Inv := by
  rcases tickTransmitting_eq_next h with ⟨-, rfl⟩ | ⟨hne, b, -, rfl⟩
  · exact hi.txComplete hm
  · exact hi.shifted b _ hm hne

theorem execSlot_keeps_inv {n : SlotNo} (hi : s.Inv) (h : exec (.slot n) s = .next t) : t.Inv := by
  have hi' := hi.emit (.rxTimeSlotStarted n)
  obtain ⟨-, -, ⟨hm, hv, -, rfl⟩ | ⟨-, rfl⟩⟩ := execSlot_eq_next h
  · exact hi'.enterReceive hm (hi.pktChanInTable hv)
  · exact hi'

theorem execAssign_keeps_inv {ch : ChanIx} {size : PktLen} (hi : s.Inv) (h : exec (.assign ch size) s = .next t) :
    t.Inv := by
  obtain ⟨-, -, hch, hsize, ⟨hzero, rfl⟩ | ⟨hpos, rfl⟩⟩ := execAssign_eq_next h
  · have hempty : size.toNat = 0 := by unfold dataWordCount at hzero; omega
    exact hi.assignPacket hch hsize hempty.symm
  · refine hi.withArriving fun a ha => ?_
    cases ha
    exact ⟨hch, hsize, Nat.pos_of_ne_zero hpos⟩

theorem execData_keeps_inv {bits : Arg} (hi : s.Inv) (h : exec (.data bits) s = .next t) : t.Inv := by
  obtain ⟨-, a, ha, ⟨hmore, rfl⟩ | ⟨-, -, rfl⟩⟩ := execData_eq_next h
  · obtain ⟨hch, hsize, -⟩ := hi.arrivingFits a ha
    refine hi.withArriving fun a' ha' => ?_
    cases ha'
    exact ⟨hch, hsize, by simpa using hmore⟩
  · obtain ⟨hch, hsize, -⟩ := hi.arrivingFits a ha
    have hi' : State.Inv { s with arriving := none } := hi.withArriving nofun
    exact hi'.assignPacket hch hsize (packetBits_length a.size (a.got ++ [bits]))

theorem sendFilter_keeps_inv (hi : s.Inv) : (sendFilter s).Inv := by
  unfold sendFilter
  split
  · exact hi
  · exact hi.chipSetProperty _ _ _ _

theorem execCwtest_keeps_inv {ch : ChanIx} {fault : Bool} (hi : s.Inv) (h : exec (.cwtest ch fault) s = .next t) :
    t.Inv := by
  obtain ⟨-, -, hch, hm, -, e, c, f, -, -, -, rfl⟩ := execCwtest_eq_next h
  have hk := (hi.enterReceive hm hch).keyed e
  exact { hk with }

theorem exec_keeps_inv {i : Instr} (hi : s.Inv) (h : exec i s = .next t) : t.Inv := by
  cases i with
  | tick pos rssi nf fault =>
    obtain ⟨-, -, ⟨hm, h⟩ | ⟨hm, h⟩⟩ := execTick_eq_next h
    · exact tickReceiving_keeps_inv hi hm h
    · exact tickTransmitting_keeps_inv hi hm h
  | slot n => exact execSlot_keeps_inv hi h
  | utc x => obtain ⟨-, -, rfl⟩ := execUtc_eq_next h; exact hi.withUtc x
  | assign ch size => exact execAssign_keeps_inv hi h
  | startrx ch => obtain ⟨-, -, hch, hm, rfl⟩ := execStartrx_eq_next h; exact hi.enterReceive hm hch
  | configure =>
    obtain ⟨-, -, -, rfl⟩ := execConfigure_eq_next h
    exact sendFilter_keeps_inv ((hi.emit .rxConfigure).chipSetProperty _ _ _ _)
  | setpwr level => obtain ⟨-, -, -, e, -, rfl⟩ := execSetpwr_eq_next h; exact hi.chipSetProperty _ _ _ _
  | cwtest ch fault => exact execCwtest_keeps_inv hi h
  | data bits => exact execData_keeps_inv hi h
  | setProperty g n st bs => cases exec_effect h; exact hi.chipSetProperty g n st bs
  | gpioPinCfg p => cases exec_effect h; exact hi.chipGpioPinCfg p
  | startTx c k l d r => cases exec_effect h; exact hi.emit _
  | getChipStatus => cases exec_effect h; exact hi.emit _

end

/-- Settles O48: a step holds, resets or runs an instruction, and each keeps the invariant. -/
theorem stepKeepsInvariant : Obligations.StepKeepsInvariant := by
  unfold Obligations.StepKeepsInvariant
  intro s t hi h
  rcases step_eq_next h with ⟨-, -, rfl⟩ | ⟨d, rest, -, -, rfl⟩ | ⟨x, rest, i, -, -, hexec⟩
  · exact hi
  · exact (hi.withPort rest).applyReset d
  · exact exec_keeps_inv (hi.withPort rest) hexec

end Sys2Proof.Machine

/-! ### What the actions mirror (10_state.md R24) -/

namespace Sys2Proof.Machine

theorem foldl_mirror_enterActions (c : Cfg) (ch : ChanIx) (m : Mirrored) :
    (enterActions c ch).foldl mirror m =
      { m with
        bitPinDir := .input
        paBias    := false
        chan      := ch
        chip      := { m.chip with pins := receivePins c.chip } } := rfl

theorem foldl_mirror_keyActions (c : Cfg) (e : PowerEntry) (m : Mirrored) :
    (keyActions c e).foldl mirror m =
      { m with
        bitPinDir := .output
        paBias    := true
        chip      := ⟨withPower c e m.chip.props, transmitPins c.chip⟩ } := rfl

theorem foldl_mirror_startActions (c : Cfg) (ordinal condition : Byte) (m : Mirrored) :
    (startActions c ordinal condition).foldl mirror m = m := rfl

/-- The filter command carries as many bytes as it announces, so all nine reach the chip. -/
theorem take_bt04Coeff (k : ChipConsts) : k.bt04Coeff.toList.take (9#8).toNat = k.bt04Coeff.toList :=
  List.take_of_length_le (by simp)

/-- Every effect appends actions, and what it does to the outputs is what those actions say. -/
theorem Effect.replays {s t : State} {i : Instr} (h : Effect s i t) :
    ∃ acts, t.trace = s.trace ++ acts ∧ mirrored t = acts.foldl mirror (mirrored s) := by
  cases h
  case utc | assignHeader | assignEmpty | dataMore | dataLast => exact ⟨[], (List.append_nil _).symm, rfl⟩
  case tickStart | tickRejected | cwtest =>
    refine ⟨_, rfl, ?_⟩
    simp only [List.foldl_append, foldl_mirror_keyActions, foldl_mirror_startActions, foldl_mirror_enterActions]
    rfl
  case tickComplete | slotRetune =>
    refine ⟨_, rfl, ?_⟩
    simp only [List.foldl_append, foldl_mirror_enterActions]
    rfl
  case configureFilter =>
    refine ⟨_, rfl, ?_⟩
    simp only [List.foldl_cons, List.foldl_nil, mirror, take_bt04Coeff]
    rfl
  case tickIdle | tickDiscard | tickShift | slotOnly | assignHeld | dataHeld | startrx | configure | setpwr | setProperty
      | gpioPinCfg | startTx | getChipStatus => exact ⟨_, rfl, rfl⟩

/-- Settles O57: every effect of an instruction replays. -/
theorem outputsAreReplayOfActions : Obligations.OutputsAreReplayOfActions := by
  unfold Obligations.OutputsAreReplayOfActions
  exact fun _ _ _ h => (exec_effect h).replays

/-! ### Bias, LASTTX and the held packet over all instructions (R29, R30, R31, R33) -/

/-- R33 is kept by every effect but the carrier test's, which alone raises the bias in RECEIVING. -/
theorem Effect.biasOnlyInTransmit {s t : State} {i : Instr} (h : Effect s i t) (hb : BiasOnlyInTransmit s)
    (hcw : ∀ ch f, i ≠ .cwtest ch f) : BiasOnlyInTransmit t := by
  cases h
  case cwtest ch fault _ _ _ _ _ => exact absurd rfl (hcw ch fault)
  case tickStart => exact ⟨fun _ => rfl, nofun⟩
  case tickRejected | tickComplete | slotRetune | startrx => exact ⟨nofun, fun _ => rfl⟩
  all_goals exact hb

theorem Effect.startrx_biasOnlyInTransmit {s t : State} {ch : ChanIx} (h : Effect s (.startrx ch) t) :
    BiasOnlyInTransmit t := by
  cases h
  exact ⟨nofun, fun _ => rfl⟩

/-- Settles O50: an invariant of the effects, and what STARTRX restores. -/
theorem biasOnlyInTransmitKept : Obligations.BiasOnlyInTransmitKept := by
  unfold Obligations.BiasOnlyInTransmitKept
  exact ⟨fun _ _ _ _ hb hcw h => (exec_effect h).biasOnlyInTransmit hb hcw,
    fun _ _ _ h => (exec_effect h).startrx_biasOnlyInTransmit⟩

theorem Effect.lastTx_eq_or_completes {s t : State} {i : Instr} (h : Effect s i t) :
    t.lastTx = s.lastTx ∨ (isTick i = true ∧ s.mode = .transmitting ∧ s.pktCur = s.pktSize ∧ t.lastTx = s.utc) := by
  cases h
  case tickComplete hm he => exact .inr ⟨rfl, hm, he, rfl⟩
  all_goals exact .inl rfl

/-- A tick at end-of-frame completes: every other effect of a tick has another mode or another cursor. -/
theorem Effect.lastTx_of_endOfFrame {s t : State} {i : Instr} (h : Effect s i t) (htick : isTick i = true)
    (hm : s.mode = .transmitting) (he : s.pktCur = s.pktSize) : t.lastTx = s.utc := by
  cases h
  case tickComplete => rfl
  case tickShift hne _ => exact absurd he hne
  case tickIdle hr | tickDiscard hr _ _ _ _ | tickStart hr _ _ _ | tickRejected hr _ _ _ => cases hr.symm.trans hm
  all_goals cases htick

/-- Settles O51: of the effects only the completion writes LASTTX. -/
theorem lastTxWrittenOnlyAtCompletion : Obligations.LastTxWrittenOnlyAtCompletion := by
  unfold Obligations.LastTxWrittenOnlyAtCompletion
  exact fun _ _ _ h => ⟨(exec_effect h).lastTx_eq_or_completes, (exec_effect h).lastTx_of_endOfFrame⟩

/-- The two hand-overs need an empty slot, and of the rest only the shift writes a register of the packet, its cursor. -/
theorem Effect.held_packet {s t : State} {i : Instr} (h : Effect s i t) (hi : s.Inv) (hv : s.pktValid = true) :
    t.pktChan = s.pktChan ∧ t.pktTs = s.pktTs ∧ t.pktSize = s.pktSize ∧ t.pktMem = s.pktMem ∧
    (t.pktCur = s.pktCur ∨ (s.mode = .transmitting ∧ isTick i = true ∧ t.pktCur.toNat = s.pktCur.toNat + 1)) := by
  cases h
  case assignEmpty hempty | dataLast hempty => cases hempty.symm.trans hv
  case tickShift hm hne _ => exact ⟨rfl, rfl, rfl, rfl, .inr ⟨hm, rfl, (hi.cursor_succ hv hne).2⟩⟩
  all_goals exact ⟨rfl, rfl, rfl, rfl, .inl rfl⟩

/-- Settles O52: no effect that finds a packet held writes its registers, the shift's cursor apart. -/
theorem heldPacketNeverOverwritten : Obligations.HeldPacketNeverOverwritten := by
  unfold Obligations.HeldPacketNeverOverwritten
  exact fun _ _ _ hi hv h => (exec_effect h).held_packet hi hv

/-- The slot is emptied by the age discard and by the completion only. -/
theorem Effect.releases {s t : State} {i : Instr} {acts : List Action} (h : Effect s i t)
    (htr : t.trace = s.trace ++ acts) (hv : s.pktValid = true) (hv' : t.pktValid = false) :
    isTick i = true ∧ acts.count .poolFree = 1 ∧ Action.cmd .getChipStatus ∉ acts ∧
      ((s.mode = .transmitting ∧ s.pktCur = s.pktSize ∧ t.lastTx = s.utc) ∨
        (s.mode = .receiving ∧ s.cfg.testMode = false ∧ s.utc ≠ 0#32 ∧ age s > s.cfg.maxAge.toNat)) := by
  cases h
  case tickDiscard hm _ hnormal hknown hage =>
    obtain rfl := List.append_cancel_left htr
    exact ⟨rfl, by simp, by simp, .inr ⟨hm, hnormal, hknown, hage⟩⟩
  case tickComplete hm he =>
    obtain rfl := List.append_cancel_left htr
    exact ⟨rfl, by simp [enterActions], by simp [enterActions], .inl ⟨hm, he, rfl⟩⟩
  case assignEmpty | dataLast => cases hv'
  all_goals cases hv.symm.trans hv'

/-- Nothing goes back to the pool while the packet stays. -/
theorem Effect.no_poolFree {s t : State} {i : Instr} {acts : List Action} (h : Effect s i t)
    (htr : t.trace = s.trace ++ acts) (hv' : t.pktValid = true) : acts.count .poolFree = 0 := by
  cases h
  case tickDiscard | tickComplete => cases hv'
  case utc | assignHeader | assignEmpty | dataMore | dataLast =>
    obtain rfl := List.self_eq_append_right.mp htr
    rfl
  all_goals
    obtain rfl := List.append_cancel_left htr
    simp [enterActions, keyActions, startActions]

/-- Settles O53: the two effects that empty the slot, and the others, which send nothing to the pool. -/
theorem packetReleasedTwoWays : Obligations.PacketReleasedTwoWays := by
  unfold Obligations.PacketReleasedTwoWays
  exact fun _ _ _ _ h htr =>
    ⟨(exec_effect h).releases htr, fun _ hv' => (exec_effect h).no_poolFree htr hv'⟩

/-! ### The shifting tick on the lines (R26, R123) -/

theorem exec_tick_shift {s : State} {b : Bool} (pos : BitPos) (rssi nf : Rssi) (fault : Bool) (hr : Ready s)
    (hm : s.mode = .transmitting) (hne : s.pktCur ≠ s.pktSize) (hb : s.pktMem[s.pktCur.toNat]? = some b) :
    exec (.tick pos rssi nf fault) s =
      .next { s with pktCur := s.pktCur + 1#16, txLine := b, trace := s.trace ++ [.pinLevel b] } := by
  simp [exec, execTick, hr.1, hr.2, hm, tickTransmitting, endOfFrame, hne, shiftBit_some hb]

theorem State.Inv.cursor_in_mem {s : State} (hi : s.Inv) (hm : s.mode = .transmitting) (hne : s.pktCur ≠ s.pktSize) :
    s.pktCur.toNat < s.pktMem.length := by
  have hv := hi.txHoldsPacket hm
  calc s.pktCur.toNat < s.pktSize.toNat := (hi.cursor_succ hv hne).1
    _ ≤ s.cfg.pktMaxBits := hi.sizeFits hv
    _ = s.pktMem.length := hi.memLength.symm

/-- Settles O27: the cursor finds its bit, and the invariant gives the other lines. -/
theorem shiftedBitStandsOnLine : Obligations.ShiftedBitStandsOnLine := by
  unfold Obligations.ShiftedBitStandsOnLine
  intro s pos rssi nf fault hi hr hm hne
  have hb := List.getElem?_eq_getElem (hi.cursor_in_mem hm hne)
  obtain ⟨hbias, hpin⟩ := hi.txKeyed hm
  refine ⟨_, _, exec_tick_shift pos rssi nf fault hr hm hne hb, hb, ?_⟩
  simp [State.lines, noiseFloorChannel, PinDir.code, Mode.code, hbias, hpin, hm, hi.txOnChannel hm]

/-! ### The answers a tick consumes (R25, R101, R105, R120) -/

/-- What a receiving tick does after its opening. -/
inductive Verdict where
  | hold
  | discard
  | start

/-- The verdict of the gate and the age policy, in the order of R101 and R105; the fault answer has no part in it. -/
def verdict (pos : BitPos) (rssi nf : Rssi) (s : State) : Verdict :=
  if !s.pktValid then .hold
  else if !(pos == s.cfg.ccaBit) then .hold
  else if !onPacketChannel s then .hold
  else if s.cfg.testMode then .start
  else if !timeKnown s then .hold
  else if stale s then .discard
  else if !channelClear rssi nf then .hold
  else if intervalElapsed s then .start
  else .hold

/-- The outcome a verdict has in the state after the opening. -/
def Verdict.outcome (fault : Bool) (s : State) : Verdict → Result
  | .hold => .next s
  | .discard => .next (discardStale s)
  | .start => startTransmitting fault s

theorem tickReceiving_eq_outcome (pos : BitPos) (rssi nf : Rssi) (fault : Bool) (s : State) :
    tickReceiving pos rssi nf fault s = (verdict pos rssi nf s).outcome fault (ticked pos s) := by
  simp only [verdict, apply_ite (Verdict.outcome fault (ticked pos s))]
  rfl

theorem verdict_of_not_aligned {s : State} {pos : BitPos} (rssi nf : Rssi) (h : ¬ Aligned s pos) :
    verdict pos rssi nf s = .hold := by
  rw [Aligned, not_and_or, not_and_or] at h
  unfold verdict onPacketChannel
  rcases h with h | h | h <;> simp [h]

/-- With the policy decided before the clearance test, `rssi` and `nf` have no part in the verdict. -/
theorem verdict_ignores_levels {s : State} (pos : BitPos) (r r' n n' : Rssi)
    (h : s.cfg.testMode = true ∨ timeKnown s = false ∨ stale s = true) : verdict pos r n s = verdict pos r' n' s := by
  unfold verdict
  rcases h with h | h | h <;> simp [h]

theorem exec_tick_congr {s : State} {pos : BitPos} {r r' n n' : Rssi} {f f' : Bool}
    (h : s.mode = .receiving → tickReceiving pos r n f s = tickReceiving pos r' n' f' s) :
    exec (.tick pos r n f) s = exec (.tick pos r' n' f') s := by
  simp only [exec, execTick]
  congr 1
  cases hm : s.mode with
  | receiving => exact h hm
  | transmitting => rfl

/-- A transmit start asks the chip for its status. -/
theorem startTransmitting_asks_status {s t : State} {fault : Bool} (h : startTransmitting fault s = .next t) :
    ∃ acts, t.trace = s.trace ++ acts ∧ Action.cmd .getChipStatus ∈ acts := by
  obtain ⟨e, c, -, -, rfl | rfl⟩ := startTransmitting_eq_next h
  · exact ⟨_, by simp only [started, keyed, List.append_assoc]; rfl, by simp⟩
  · exact ⟨_, by simp only [txStartFailed_eq, started, keyed, List.append_assoc]; rfl, by simp⟩

theorem tick_ignores_fault {s t : State} {pos : BitPos} {rssi nf : Rssi} {f : Bool} {acts : List Action} (g : Bool)
    (h : exec (.tick pos rssi nf f) s = .next t) (htr : t.trace = s.trace ++ acts)
    (hno : Action.cmd .getChipStatus ∉ acts) : exec (.tick pos rssi nf g) s = .next t := by
  rw [← h]
  refine exec_tick_congr fun hm => ?_
  obtain ⟨-, -, ⟨-, ht⟩ | ⟨hm', -⟩⟩ := execTick_eq_next h
  case inr => cases hm.symm.trans hm'
  rw [tickReceiving_eq_outcome] at ht
  rw [tickReceiving_eq_outcome, tickReceiving_eq_outcome]
  cases hver : verdict pos rssi nf s with
  | hold => rfl
  | discard => rfl
  | start =>
    rw [hver] at ht
    obtain ⟨sent, hsent, hmem⟩ := startTransmitting_asks_status ht
    have hacts : acts = .rxOnBitClock :: sent :=
      List.append_cancel_left (htr.symm.trans (hsent.trans (List.append_assoc s.trace [_] sent)))
    exact absurd (hacts ▸ List.mem_cons_of_mem _ hmem) hno

/-- Settles O25: the fault answer reaches the start alone, and the verdict is reached before the levels are asked for. -/
theorem unconsumedAnswersIgnored : Obligations.UnconsumedAnswersIgnored := by
  unfold Obligations.UnconsumedAnswersIgnored
  refine ⟨fun s t pos rssi nf f g acts h htr hno => tick_ignores_fault g h htr hno,
    fun s pos r r' n n' f f' hal => exec_tick_congr fun _ => ?_,
    fun s pos r r' n n' f hcase => exec_tick_congr fun hm => ?_⟩
  · simp only [tickReceiving_eq_outcome, verdict_of_not_aligned _ _ hal, Verdict.outcome]
  · have hdecided : s.cfg.testMode = true ∨ timeKnown s = false ∨ stale s = true := by
      simpa [hm, timeKnown, stale, packetAge, age] using hcase
    rw [tickReceiving_eq_outcome, tickReceiving_eq_outcome, verdict_ignores_levels pos r r' n n' hdecided]

/-! ### The chip's contents are never read (R23, R44)

Two runs on different chip contents are followed side by side: they meet the same tests, so they stay the same, the contents
apart. -/

/-- Two outcomes that are the same, what the chip holds apart. -/
inductive SameApartFromChip : Result → Result → Prop where
  | next (t : State) (c : Chip) : SameApartFromChip (.next { t with chip := c }) (.next t)
  | fault (f : Fault) : SameApartFromChip (.fault f) (.fault f)
  | refused (x : Refusal) : SameApartFromChip (.refused x) (.refused x)

/-- A meaning that does not read what the chip holds. -/
def ChipBlind (k : State → Result) : Prop := ∀ (s : State) (c : Chip), SameApartFromChip (k { s with chip := c }) (k s)

theorem SameApartFromChip.withChip_eq {r r' : Result} (h : SameApartFromChip r r') (c : Chip) :
    withChip c r = withChip c r' := by
  cases h <;> rfl

section

variable {s : State} {c : Chip} {r r' q q' : Result}

namespace SameApartFromChip

theorem of_next {t t' : State} (h : t = { t' with chip := t.chip }) : SameApartFromChip (.next t) (.next t') := by
  rw [h]
  exact .next t' t.chip

theorem ite (p : Prop) [Decidable p] (h : SameApartFromChip r r') (hq : SameApartFromChip q q') :
    SameApartFromChip (if p then r else q) (if p then r' else q') := by
  split
  · exact h
  · exact hq

theorem andThen {k : State → Result} (h : SameApartFromChip r r') (hk : ChipBlind k) :
    SameApartFromChip (andThen r k) (andThen r' k) := by
  cases h with
  | next t c => exact hk t c
  | fault f => exact .fault f
  | refused x => exact .refused x

theorem unlessStopped (h : SameApartFromChip r r') :
    SameApartFromChip (unlessStopped { s with chip := c } r) (unlessStopped s r') := by
  unfold Machine.unlessStopped
  cases s.fault with
  | none => exact h
  | doubleAssign => exact .fault .stopped

theorem admitEvent (h : SameApartFromChip r r') :
    SameApartFromChip (admitEvent { s with chip := c } r) (admitEvent s r') :=
  unlessStopped (ite _ (.refused .insideAssign) h)

theorem unlessTransmitting (h : SameApartFromChip r r') :
    SameApartFromChip (unlessTransmitting { s with chip := c } r) (unlessTransmitting s r') := by
  unfold Machine.unlessTransmitting
  cases s.mode with
  | receiving => exact h
  | transmitting => exact .refused .whileTransmitting

end SameApartFromChip

theorem chipBlind_setTxPower (level : Nat) : ChipBlind (setTxPower level) := by
  intro s c
  unfold setTxPower powerEntryAt
  cases s.cfg.powerTable[level]? with
  | none => exact .refused .levelOutOfRange
  | some e => exact .of_next rfl

theorem chipBlind_configGpiosForTx (level : Nat) : ChipBlind (configGpiosForTx level) := fun s _ =>
  .andThen (chipBlind_setTxPower level (chipGpioPinCfg (txPins s.cfg.chip) (setPinDir .output s)) _)
    fun _ _ => .of_next rfl

theorem chipBlind_startTxOn (ch : ChanIx) (condition : Byte) : ChipBlind (startTxOn ch condition) := by
  intro s c
  unfold startTxOn
  cases channelOrdinal s.cfg ch with
  | none => exact .refused .channelOutOfRange
  | some ordinal => exact .of_next rfl

theorem chipBlind_startTransmitting (fault : Bool) : ChipBlind (startTransmitting fault) := fun s c =>
  .andThen (chipBlind_configGpiosForTx s.cfg.txPowerLevel { s with mode := .transmitting } c) fun u d =>
    .andThen (chipBlind_startTxOn u.pktChan u.cfg.chip.txCondNormal u d) fun _ _ =>
      .ite _ (.of_next rfl) (.of_next rfl)

theorem chipBlind_tickReceiving (pos : BitPos) (rssi nf : Rssi) (fault : Bool) :
    ChipBlind (tickReceiving pos rssi nf fault) := by
  intro s c
  rw [tickReceiving_eq_outcome, tickReceiving_eq_outcome]
  change SameApartFromChip ((verdict pos rssi nf s).outcome fault { ticked pos s with chip := c }) _
  cases verdict pos rssi nf s with
  | hold => exact .of_next rfl
  | discard => exact .of_next rfl
  | start => exact chipBlind_startTransmitting fault (ticked pos s) c

theorem chipBlind_tickTransmitting : ChipBlind tickTransmitting := by
  intro s c
  refine .ite _ (.of_next rfl) ?_
  unfold shiftBit currentPacketBit
  cases s.pktMem[s.pktCur.toNat]? with
  | none => exact .refused .packetIndexOutOfRange
  | some b => exact .of_next rfl

theorem chipBlind_sendFilter : ChipBlind fun s => .next (sendFilter s) := by
  refine fun s c => .of_next ?_
  unfold sendFilter
  cases s.cfg.filterShaping with
  | off => rfl
  | bt04 => rfl

theorem chipBlind_assignPacket (ch : ChanIx) (size : PktLen) (bits : List Bool) :
    ChipBlind fun s => .next (assignPacket ch size bits s) := by
  refine fun s c => .of_next ?_
  unfold assignPacket
  split
  · rfl
  · rfl

theorem chipBlind_execData (bits : Arg) : ChipBlind (execData bits) := by
  refine fun s c => .unlessStopped ?_
  cases s.arriving with
  | none => exact .refused .dataOutsideAssign
  | some a =>
    exact .ite _ (.of_next rfl) <| .ite _ (.refused .paddingNotZero) <|
      chipBlind_assignPacket a.ch a.size _ { s with arriving := none } c

theorem chipBlind_execCwtest (ch : ChanIx) (fault : Bool) : ChipBlind (execCwtest ch fault) := fun s _ =>
  .admitEvent <| .ite _ (.refused .channelOutOfRange) <| .unlessTransmitting <| .ite _ (.refused .packetHeld) <|
    .andThen (chipBlind_configGpiosForTx s.cfg.txPowerLevel (enterReceive ch s) _) fun u d =>
      .andThen (chipBlind_startTxOn ch u.cfg.chip.txCondCw u d) fun _ _ => .of_next rfl

theorem chipBlind_exec (i : Instr) : ChipBlind (exec i) := by
  intro s c
  cases i with
  | tick pos rssi nf fault =>
    refine .admitEvent ?_
    dsimp only
    split
    · exact chipBlind_tickReceiving pos rssi nf fault s c
    · exact chipBlind_tickTransmitting s c
  | slot n => exact .admitEvent (.ite _ (.of_next rfl) (.of_next rfl))
  | utc x => exact .admitEvent (.of_next rfl)
  | assign ch size =>
    exact .admitEvent <| .ite _ (.refused .channelOutOfRange) <| .ite _ (.refused .sizeOutOfRange) <|
      .ite _ (chipBlind_assignPacket ch size [] s c) (.of_next rfl)
  | startrx ch =>
    exact .admitEvent <| .ite _ (.refused .channelOutOfRange) <| .unlessTransmitting (.of_next rfl)
  | configure => exact .admitEvent <| .unlessTransmitting (chipBlind_sendFilter (sendModulation (s.emit .rxConfigure)) _)
  | setpwr level =>
    exact .admitEvent <| .ite _ (.refused .levelOutOfRange) <|
      .unlessTransmitting (chipBlind_setTxPower level.toNat s c)
  | cwtest ch fault => exact chipBlind_execCwtest ch fault s c
  | data bits => exact chipBlind_execData bits s c
  | setProperty g n st bs => exact .unlessStopped (.of_next rfl)
  | gpioPinCfg p => exact .unlessStopped (.of_next rfl)
  | startTx a k l d r => exact .unlessStopped (.of_next rfl)
  | getChipStatus => exact .unlessStopped (.of_next rfl)

end

/-- Settles O59: every meaning is blind to the chip's contents. -/
theorem chipContentsNeverRead : Obligations.ChipContentsNeverRead := by
  unfold Obligations.ChipContentsNeverRead
  exact fun s i c c' => (chipBlind_exec i s c').withChip_eq c

/-! ### Delivering a word, and reset (R34, R60) -/

/-- DATA alone has the operation code 0x80 (R65, R71). -/
theorem opOf_eq_data_iff {w : EventWord} {i : Instr} (h : decodeWord w = .ok i) :
    opOf w = 0x80#8 ↔ ∃ b, i = .data b := by
  constructor
  · intro hop
    have hdata : decodeWord w = .ok (.data (argOf w)) := by simp [decodeWord, hop]
    exact ⟨argOf w, Except.ok.inj (h.symm.trans hdata)⟩
  · rintro ⟨b, rfl⟩
    by_contra hop
    simp only [decodeWord, hop, if_false, ite_eq_iff, Except.ok.injEq, reduceCtorEq, and_false, or_false] at h

theorem wireOfTable_word {w : Nat} {i : Instr} (h : decodeWord (BitVec.ofNat 40 w) = .ok i) :
    wireOfTable 40 w = .word (BitVec.ofNat 40 w) := by
  simp [wireOfTable, h]

/-- The step after the delivery of a word runs it; what is in progress then depends on whether it is a DATA word. -/
theorem step_withFetchWord (s : State) {w : Nat} {i : Instr} (h : decodeWord (BitVec.ofNat 40 w) = .ok i) :
    step (s.withFetchWord 40 w) = exec i
      { s with arriving := if opOf (BitVec.ofNat 40 w) == 0x80#8 then headerForData s else s.arriving } := by
  rw [State.withFetchWord, wireOfTable_word h]
  exact step_of_decode rfl h

/-- Settles O9: the delivered word is run, with a header in progress exactly when it is a DATA word. -/
theorem fetchWordRunsNext : Obligations.FetchWordRunsNext := by
  unfold Obligations.FetchWordRunsNext
  intro s w i h
  refine ⟨?_, fun hne => ?_, fun b hb => ?_⟩
  · rw [decodeTableWord, wireOfTable_word h, decode, h]; rfl
  · have hop : opOf (BitVec.ofNat 40 w) ≠ 0x80#8 := fun hop =>
      let ⟨b, hb⟩ := (opOf_eq_data_iff h).mp hop
      hne b hb
    simp [step_withFetchWord s h, hop]
  · have hop : opOf (BitVec.ofNat 40 w) = 0x80#8 := (opOf_eq_data_iff h).mpr ⟨b, hb⟩
    simp [step_withFetchWord s h, hop]

/-- Settles O46: the values are those of `State.resetWith`, whatever it draws. -/
theorem resetStateValues : Obligations.ResetStateValues := by
  unfold Obligations.ResetStateValues
  exact ⟨rfl, rfl, rfl, rfl, rfl, rfl, rfl, rfl, rfl⟩

end Sys2Proof.Machine

/-! ### What decodes is its own encoding (30_encoding.md R60 to R73) -/

namespace Sys2Proof

/-- Settles O2: `decode_encode`, constructor by constructor. -/
theorem decodeOfEncodeIsIdentity : Obligations.DecodeOfEncodeIsIdentity := by
  unfold Obligations.DecodeOfEncodeIsIdentity
  exact fun _ _ hk hi => decode_encode hk hi

/-- The nine event formats of R62 to R69: the words of an event, its fields read out of the word. -/
inductive EventFormat (w : EventWord) : Instr → Prop where
  | tick (hop : opOf w = 0x01#8) (hzero : w.extractLsb' 26 5 = 0#5) :
      EventFormat w (.tick (w.extractLsb' 16 10) (w.extractLsb' 8 8) (w.extractLsb' 0 8) (w.getLsbD 31))
  | slot (hop : opOf w = 0x02#8) (hzero : w.extractLsb' 16 16 = 0#16) : EventFormat w (.slot (w.extractLsb' 0 16))
  | utc (hop : opOf w = 0x03#8) : EventFormat w (.utc (argOf w))
  | assign (hop : opOf w = 0x04#8) (hzero : w.extractLsb' 20 12 = 0#12) :
      EventFormat w (.assign (w.extractLsb' 16 4) (w.extractLsb' 0 16))
  | startrx (hop : opOf w = 0x05#8) (hzero : w.extractLsb' 4 28 = 0#28) : EventFormat w (.startrx (w.extractLsb' 0 4))
  | configure (hop : opOf w = 0x06#8) (hzero : w.extractLsb' 0 32 = 0#32) : EventFormat w .configure
  | setpwr (hop : opOf w = 0x07#8) (hzero : w.extractLsb' 8 24 = 0#24) : EventFormat w (.setpwr (w.extractLsb' 0 8))
  | cwtest (hop : opOf w = 0x08#8) (hzero : w.extractLsb' 4 27 = 0#27) :
      EventFormat w (.cwtest (w.extractLsb' 0 4) (w.getLsbD 31))
  | data (hop : opOf w = 0x80#8) : EventFormat w (.data (argOf w))

/-- The decoder reads exactly the nine formats. -/
theorem decodeWord_eq_ok_iff {w : EventWord} {i : Instr} : decodeWord w = .ok i ↔ EventFormat w i := by
  constructor
  · intro h
    unfold decodeWord at h
    split_ifs at h <;> cases h
    · exact .tick ‹_› (beq_iff_eq.mp ‹_›)
    · exact .slot ‹_› (beq_iff_eq.mp ‹_›)
    · exact .utc ‹_›
    · exact .assign ‹_› (beq_iff_eq.mp ‹_›)
    · exact .startrx ‹_› (beq_iff_eq.mp ‹_›)
    · exact .configure ‹_› (beq_iff_eq.mp ‹_›)
    · exact .setpwr ‹_› (beq_iff_eq.mp ‹_›)
    · exact .cwtest ‹_› (beq_iff_eq.mp ‹_›)
    · exact .data ‹_›
  · intro h
    cases h with
    | data hop => simp [decodeWord, hop]
    | utc hop => simp [decodeWord, hop]
    | tick hop hzero => simp [decodeWord, zeroField, hop, hzero]
    | slot hop hzero => simp [decodeWord, zeroField, hop, hzero]
    | assign hop hzero => simp [decodeWord, zeroField, hop, hzero]
    | startrx hop hzero => simp [decodeWord, zeroField, hop, hzero]
    | configure hop hzero => simp [decodeWord, zeroField, hop, hzero]
    | setpwr hop hzero => simp [decodeWord, zeroField, hop, hzero]
    | cwtest hop hzero => simp [decodeWord, zeroField, hop, hzero]

theorem eventWord_opOf_argOf (w : EventWord) : eventWord (opOf w) (argOf w) = w := by
  apply BitVec.eq_of_getLsbD_eq
  intro i hi
  by_cases h : i < 32
  · simp [eventWord, opOf, argOf, h, hi]
  · have hop : i - 32 < 8 := by omega
    have hback : 32 + (i - 32) = i := by omega
    simp [eventWord, opOf, argOf, h, hi, hop, hback]

/-- Two fields of a word that lie side by side, each put in its place, are the field they make together. -/
theorem place_or_place (w : EventWord) (lo m n : Nat) :
    place (lo + m) (w.extractLsb' (lo + m) n) ||| place lo (w.extractLsb' lo m) =
      place lo (w.extractLsb' lo (n + m)) := by
  apply BitVec.eq_of_getElem_eq
  intro i hi
  simp only [BitVec.getElem_or, getElem_place, BitVec.getLsbD_extractLsb']
  by_cases hmid : lo + m ≤ i
  · have hlo : lo ≤ i := by omega
    have hupper : lo + m + (i - (lo + m)) = lo + (i - lo) := by omega
    have hlen : i - (lo + m) < n ↔ i - lo < n + m := by omega
    have hout : ¬ i - lo < m := by omega
    simp [hmid, hlo, hupper, hlen, hout]
  · have hlen : lo ≤ i → (i - lo < m ∧ i - lo < n + m) := by omega
    by_cases hlo : lo ≤ i <;> simp [hmid, hlo, hlen]

@[simp] theorem place_zero {n : Nat} (lo : Nat) : place lo (0#n) = 0#32 := by simp [place]

theorem ofBool_getLsbD (w : EventWord) (i : Nat) : BitVec.ofBool (w.getLsbD i) = w.extractLsb' i 1 := by
  apply BitVec.eq_of_getElem_eq
  intro j hj
  obtain rfl : j = 0 := by omega
  simp

/-- A zero field above a field adds nothing to it. -/
theorem place_below_zero {w : EventWord} (lo m : Nat) {n : Nat} (hzero : w.extractLsb' (lo + m) n = 0#n) :
    place lo (w.extractLsb' lo m) = place lo (w.extractLsb' lo (n + m)) := by
  rw [← place_or_place, hzero, place_zero, BitVec.zero_or]

/-- A zero field below a field adds nothing to it. -/
theorem place_above_zero {w : EventWord} (lo m : Nat) {n : Nat} (hzero : w.extractLsb' lo m = 0#m) :
    place (lo + m) (w.extractLsb' (lo + m) n) = place lo (w.extractLsb' lo (n + m)) := by
  rw [← place_or_place, hzero, place_zero, BitVec.or_zero]

@[simp] theorem place_argOf (w : EventWord) : place 0 (w.extractLsb' 0 32) = argOf w := by
  simp [place, argOf]

/-- The fields of a format and its zero fields make up the whole argument. -/
theorem EventFormat.encode_eq {w : EventWord} {i : Instr} (k : ChipConsts) (h : EventFormat w i) :
    encode k i = .word w := by
  suffices ∃ op arg, encode k i = .word (eventWord op arg) ∧ op = opOf w ∧ arg = argOf w by
    obtain ⟨_, _, hencode, rfl, rfl⟩ := this
    rw [hencode, eventWord_opOf_argOf]
  cases h with
  | tick hop hzero =>
    refine ⟨_, _, rfl, hop.symm, ?_⟩
    rw [ofBool_getLsbD, place_above_zero 26 5 hzero, place_or_place w 16 10, place_or_place w 8 8,
      place_or_place w 0 8, place_argOf]
  | slot hop hzero => exact ⟨_, _, rfl, hop.symm, by rw [place_below_zero 0 16 hzero, place_argOf]⟩
  | utc hop => exact ⟨_, _, rfl, hop.symm, rfl⟩
  | assign hop hzero =>
    exact ⟨_, _, rfl, hop.symm, by rw [place_or_place w 0 16, place_below_zero 0 20 hzero, place_argOf]⟩
  | startrx hop hzero => exact ⟨_, _, rfl, hop.symm, by rw [place_below_zero 0 4 hzero, place_argOf]⟩
  | configure hop hzero => exact ⟨_, _, rfl, hop.symm, hzero.symm⟩
  | setpwr hop hzero => exact ⟨_, _, rfl, hop.symm, by rw [place_below_zero 0 8 hzero, place_argOf]⟩
  | cwtest hop hzero =>
    refine ⟨_, _, rfl, hop.symm, ?_⟩
    rw [ofBool_getLsbD, place_above_zero 4 27 hzero, place_or_place w 0 4, place_argOf]
  | data hop => exact ⟨_, _, rfl, hop.symm, rfl⟩

theorem EventFormat.wf {w : EventWord} {i : Instr} (h : EventFormat w i) : i.wf = true := by
  cases h <;> rfl

/-- A frame is read only at the length of its command. -/
theorem decodeFrame_eq_ok {k : ChipConsts} {bytes : List Byte} {i : Instr} (h : decodeFrame k bytes = .ok i) :
    i.wf = true ∧ encode k i = .frame bytes := by
  unfold decodeFrame at h
  split at h
  · cases h
  split_ifs at h with hset hgpio hstart hstatus
  · split at h
    · split_ifs at h with hlen
      cases h
      exact ⟨by simpa [Instr.wf] using hlen, by simp [encode, hset]⟩
    · cases h
  · split at h <;> cases h
    exact ⟨rfl, by simp [encode, PinMap.bytes, hgpio]⟩
  · split at h <;> cases h
    exact ⟨rfl, by simp [encode, hstart]⟩
  · split at h <;> cases h
    exact ⟨rfl, by simp [encode, hstatus]⟩

/-- Settles O3: a word is rebuilt from the fields of its format, a frame from the bytes matched. -/
theorem encodeOfDecodeIsIdentity : Obligations.EncodeOfDecodeIsIdentity := by
  unfold Obligations.EncodeOfDecodeIsIdentity
  intro k x i h
  cases x with
  | word w =>
    have hformat : EventFormat w i := decodeWord_eq_ok_iff.mp h
    exact ⟨hformat.wf, hformat.encode_eq k⟩
  | frame bytes => exact decodeFrame_eq_ok h

end Sys2Proof

/-! ### The opcode table (30_encoding.md R71, R72) -/

namespace Sys2Proof.Machine

theorem tableRow (i : Instr) : Laws.TableRow.Statement i := by
  cases i with
  | tick pos rssi nf fault => exact Laws.TableRow.tick pos rssi nf fault
  | slot slot => exact Laws.TableRow.slot slot
  | utc t => exact Laws.TableRow.utc t
  | assign ch size => exact Laws.TableRow.assign ch size
  | startrx ch => exact Laws.TableRow.startrx ch
  | configure => exact Laws.TableRow.configure
  | setpwr level => exact Laws.TableRow.setpwr level
  | cwtest ch fault => exact Laws.TableRow.cwtest ch fault
  | data bits => exact Laws.TableRow.data bits
  | setProperty group count start bytes => exact Laws.TableRow.setProperty group count start bytes
  | gpioPinCfg pins => exact Laws.TableRow.gpioPinCfg pins
  | startTx channel condition length delay reps => exact Laws.TableRow.startTx channel condition length delay reps
  | getChipStatus => exact Laws.TableRow.getChipStatus

theorem rowOf_mem_eventRows {i : Instr} {r : EventWord × EventWord} (h : Laws.rowOf i = some r) : r ∈ eventRows := by
  cases i <;> cases h <;> decide

/-- A field that the mask of a row covers has in every word of the row the bits of the row's match. -/
theorem extractLsb'_of_row {w : EventWord} {r : EventWord × EventWord} {lo len : Nat}
    (hmask : r.2.extractLsb' lo len = BitVec.allOnes len) (h : w &&& r.2 = r.1) :
    w.extractLsb' lo len = r.1.extractLsb' lo len := by
  rw [← h, BitVec.extractLsb'_and, hmask, BitVec.and_allOnes]

theorem mask_covers_op : ∀ r ∈ eventRows, r.2.extractLsb' 32 8 = BitVec.allOnes 8 := by
  simp [eventRows]

/-- A row of the table is a format: its mask covers the operation code and the fields that the format marks zero. -/
theorem format_of_row {w : EventWord} {r : EventWord × EventWord} (hr : r ∈ eventRows) (h : w &&& r.2 = r.1) :
    ∃ i, EventFormat w i := by
  have hop : opOf w = r.1.extractLsb' 32 8 := extractLsb'_of_row (mask_covers_op _ hr) h
  simp only [eventRows, List.mem_cons, List.not_mem_nil, or_false] at hr
  rcases hr with rfl | rfl | rfl | rfl | rfl | rfl | rfl | rfl | rfl
  · exact ⟨_, .tick hop (extractLsb'_of_row rfl h)⟩
  · exact ⟨_, .slot hop (extractLsb'_of_row rfl h)⟩
  · exact ⟨_, .utc hop⟩
  · exact ⟨_, .assign hop (extractLsb'_of_row rfl h)⟩
  · exact ⟨_, .startrx hop (extractLsb'_of_row rfl h)⟩
  · exact ⟨_, .configure hop (extractLsb'_of_row rfl h)⟩
  · exact ⟨_, .setpwr hop (extractLsb'_of_row rfl h)⟩
  · exact ⟨_, .cwtest hop (extractLsb'_of_row rfl h)⟩
  · exact ⟨_, .data hop⟩

theorem eventRows_ops_distinct : eventRows.Pairwise fun r q => r.1.extractLsb' 32 8 ≠ q.1.extractLsb' 32 8 := by
  decide

/-- Settles O4: a word that decodes is the encoding of what it decodes to and so lies in its row; two rows differ in the
operation code. -/
theorem wordDecodesIffInOpcodeTable : Obligations.WordDecodesIffInOpcodeTable := by
  unfold Obligations.WordDecodesIffInOpcodeTable
  refine ⟨fun w => ⟨?_, ?_⟩, ?_⟩
  · rintro ⟨i, h⟩
    have hencode : encode Config.chipConsts i = .word w := (decodeWord_eq_ok_iff.mp h).encode_eq _
    have hrow := tableRow i Config.chipConsts
    rw [hencode] at hrow
    obtain ⟨r, hr, hw⟩ := hrow
    exact ⟨r, rowOf_mem_eventRows hr, hw⟩
  · rintro ⟨r, hr, hw⟩
    obtain ⟨i, hformat⟩ := format_of_row hr hw
    exact ⟨i, decodeWord_eq_ok_iff.mpr hformat⟩
  · refine eventRows_ops_distinct.imp_of_mem fun {r q} hr hq hne w h => hne ?_
    obtain ⟨hwr, hwq⟩ := h
    rw [← extractLsb'_of_row (mask_covers_op _ hr) hwr, extractLsb'_of_row (mask_covers_op _ hq) hwq]

/-! ### DATA words (30_encoding.md R65) -/

theorem getLsbD_dataWordOf (bits : List Bool) (j : Nat) {b : Nat} (hb : b < 32) :
    (dataWordOf bits j).getLsbD (31 - b) = bits.getD (32 * j + b) false := by
  have hlt : 31 - b < 32 := by omega
  have hback : 31 - (31 - b) = b := by omega
  simp [dataWordOf, hlt, hback]

theorem getElem?_dataWordsOf {bits : List Bool} {j : Nat} (h : 32 * j < bits.length) :
    (dataWordsOf bits)[j]? = some (dataWordOf bits j) := by
  have hj : j < (bits.length + 31) / 32 := by omega
  simp [dataWordsOf, hj]

/-- Beyond the packet the words read as zero, inside the last word and past it. -/
theorem packetBit_dataWordsOf (bits : List Bool) (i : Nat) : packetBit (dataWordsOf bits) i = bits.getD i false := by
  by_cases h : 32 * (i / 32) < bits.length
  · rw [packetBit, List.getD_eq_getElem?_getD, getElem?_dataWordsOf h, Option.getD_some,
      getLsbD_dataWordOf bits _ (Nat.mod_lt i (by omega)), Nat.div_add_mod]
  · have hword : (dataWordsOf bits).length ≤ i / 32 := by simp [dataWordsOf]; omega
    have hbit : bits.length ≤ i := by omega
    rw [packetBit, List.getD_eq_default _ _ hword, List.getD_eq_default _ _ hbit, BitVec.getLsbD_zero]

/-- Settles O5: every clause is about single bits of the DATA words, which are those of the packet, zero beyond it. -/
theorem dataWordsCarryPacketBits : Obligations.DataWordsCarryPacketBits := by
  unfold Obligations.DataWordsCarryPacketBits
  intro bits hlen
  have hsize : (BitVec.ofNat 16 bits.length).toNat = bits.length := BitVec.toNat_ofNat .. ▸ Nat.mod_eq_of_lt hlen
  refine ⟨by simp [dataWordsOf], fun i hi => ?_, ?_, ?_⟩
  · refine ⟨_, getElem?_dataWordsOf (by omega), ?_⟩
    rw [getLsbD_dataWordOf bits _ (Nat.mod_lt i (by omega)), Nat.div_add_mod, List.getD_eq_getElem _ _ hi,
      List.getElem?_eq_getElem hi]
  · rw [paddingZero, hsize, List.all_eq_true]
    intro j _
    rw [packetBit_dataWordsOf, List.getD_eq_default _ _ (Nat.le_add_right _ _), Bool.not_false]
  · apply List.ext_getElem
    · rw [packetBits_length, hsize]
    · intro i _ hi
      simp [packetBits, packetBit_dataWordsOf, hi]

/-! ### Taking an item, and the words of an ASSIGN sequence (R65, R72, R186) -/

theorem step_of_port_nil {s : State} (hp : s.port = []) : step s = unlessCutShort s (.next s) := by
  simp only [step, stepWith, hp]

theorem step_of_rst {s : State} {d : ResetDraw} {rest : List Input} (hp : s.port = .rst d :: rest) :
    step s = unlessCutShort s (.next (applyReset d { s with port := rest })) := by
  simp only [step, stepWith, hp]

theorem step_of_undecodable {s : State} {x : Wire} {rest : List Input} {e : DecodeError}
    (hp : s.port = .wire x :: rest) (hd : decode s.cfg.chip x = .error e) :
    step s = unlessStopped s (.refused (.reservedEncoding e)) := by
  simp only [step, stepWith, hp, hd]
  rfl

theorem stopped_of_fault_ne {s : State} (h : s.fault ≠ .none) : s.fault = .doubleAssign := by
  cases hf : s.fault with
  | none => exact absurd hf h
  | doubleAssign => rfl

/-- Settles O8: one equation of `step` per item at the inputs, then the guard it meets. -/
theorem stepIdleAndReserved : Obligations.StepIdleAndReserved := by
  unfold Obligations.StepIdleAndReserved
  refine ⟨fun s hp hidle => ?_, fun s x rest e hp hd => ⟨fun hf => ?_, fun hf => ?_⟩⟩
  · rw [step_of_port_nil hp]
    rcases hidle with ha | hf
    · exact unlessCutShort_whole _ ha
    · exact unlessCutShort_stopped _ (stopped_of_fault_ne hf)
  · rw [step_of_undecodable hp hd, unlessStopped_running _ hf]
  · rw [step_of_undecodable hp hd, unlessStopped_stopped _ (stopped_of_fault_ne hf)]

@[simp] theorem admitEvent_inside {s : State} {a : Arriving} (k : Result) (hf : s.fault = .none)
    (ha : s.arriving = some a) : admitEvent s k = .refused .insideAssign := by
  simp [admitEvent, hf, ha]

/-- Every event but DATA asks first whether an ASSIGN sequence is in progress. -/
theorem exec_event_inside {s : State} {i : Instr} {a : Arriving} (hf : s.fault = .none) (ha : s.arriving = some a)
    (hevent : isEvent i = true) (hdata : ∀ b, i ≠ .data b) : exec i s = .refused .insideAssign := by
  cases i with
  | data bits => exact absurd rfl (hdata bits)
  | setProperty | gpioPinCfg | startTx | getChipStatus => cases hevent
  | tick | slot | utc | assign | startrx | configure | setpwr | cwtest => exact admitEvent_inside _ hf ha

theorem exec_data_outside {s : State} (bits : Arg) (hr : Ready s) :
    exec (.data bits) s = .refused .dataOutsideAssign := by
  obtain ⟨hf, ha⟩ := hr
  simp [exec, execData, hf, ha]

/-- Settles O15: DATA asks for a sequence in progress, every other event for none. -/
theorem assignSequenceNotInterleaved : Obligations.AssignSequenceNotInterleaved := by
  unfold Obligations.AssignSequenceNotInterleaved
  exact ⟨fun _ bits hr => exec_data_outside bits hr,
    fun _ _ _ hf ha hevent hdata => exec_event_inside hf ha hevent hdata⟩

theorem exec_assign_opens {s : State} {ch : ChanIx} {size : PktLen} (hr : Ready s) (hch : ch.toNat < s.cfg.nch)
    (hsize : size.toNat ≤ s.cfg.pktMaxBits) (hwords : 0 < dataWordCount size) :
    exec (.assign ch size) s = .next { s with arriving := some ⟨ch, size, []⟩ } := by
  obtain ⟨hf, ha⟩ := hr
  simp [exec, execAssign, hf, ha, channelInRange, hch, sizeInRange, hsize, Nat.ne_of_gt hwords]

theorem exec_data_kept {s : State} (ch : ChanIx) (size : PktLen) (before : List Arg) (bits : Arg)
    (hf : s.fault = .none) (hmore : before.length + 1 < dataWordCount size) :
    exec (.data bits) { s with arriving := some ⟨ch, size, before⟩ } =
      .next { s with arriving := some ⟨ch, size, before ++ [bits]⟩ } := by
  simp [exec, execData, hf, hmore]

/-- DATA words that do not complete the sequence are kept behind the words before them, and change nothing else. -/
theorem execAll_data_kept {s : State} (ch : ChanIx) (size : PktLen) (before words : List Arg) (hf : s.fault = .none)
    (hmore : before.length + words.length < dataWordCount size) :
    execAll (words.map .data) { s with arriving := some ⟨ch, size, before⟩ } =
      .next { s with arriving := some ⟨ch, size, before ++ words⟩ } := by
  induction words generalizing before with
  | nil => rw [List.append_nil]; rfl
  | cons w ws ih =>
    rw [List.length_cons] at hmore
    have hrest : (before ++ [w]).length + ws.length < dataWordCount size := by
      rw [List.length_append, List.length_singleton]; omega
    have hw : before.length + 1 < dataWordCount size := by omega
    rw [List.map_cons, execAll, exec_data_kept ch size before w hf hw, andThen_next, ih _ hrest,
      List.append_assoc, List.singleton_append]

/-- Settles O60: the state inside the sequence is the state before it but for the words received, and each way to go on
without a DATA word is refused there. -/
theorem tooFewDataWordsRefused : Obligations.TooFewDataWordsRefused := by
  unfold Obligations.TooFewDataWordsRefused
  intro s ch size got hr hch hsize hgot
  have hf : s.fault = .none := hr.left
  have hrun : execAll (.assign ch size :: got.map .data) s = .next { s with arriving := some ⟨ch, size, got⟩ } := by
    rw [execAll, exec_assign_opens hr hch hsize (by unfold dataWordCount; omega), andThen_next]
    exact execAll_data_kept ch size [] got hf (by simpa [dataWordCount] using hgot)
  refine ⟨_, hrun, rfl, ?_, fun hp => ?_, fun d rest hp => ?_, fun x rest i hp hd hevent hdata => ?_⟩
  · simp [endedWell]
  · exact (step_of_port_nil hp).trans (unlessCutShort_inside _ hf rfl)
  · exact (step_of_rst hp).trans (unlessCutShort_inside _ hf rfl)
  · rw [step_of_decode hp hd]
    exact exec_event_inside hf rfl hevent hdata

/-! ### Fixed words and frames (30_encoding.md R62 to R69, R74 to R77) -/

/-- Settles O1: the decoder is run on each of the fixed words. -/
theorem sampleWordsDecode : Obligations.SampleWordsDecode := by
  unfold Obligations.SampleWordsDecode
  decide

/-- Settles O6: the encoder writes the bytes out. -/
theorem commandFrameLayout : Obligations.CommandFrameLayout := by
  unfold Obligations.CommandFrameLayout
  exact fun _ _ _ _ _ _ _ _ _ _ _ => ⟨rfl, rfl, rfl, rfl⟩

end Sys2Proof.Machine

/-! ### UTC, ASSIGN, DATA (40_host_events.md R90 to R93) -/

namespace Sys2Proof.Machine

/-- Settles O10: in a ready state the guard of the event lets the write through. -/
theorem utcWritesTimeOnly : Obligations.UtcWritesTimeOnly := by
  unfold Obligations.UtcWritesTimeOnly
  exact fun _ _ hr => admitEvent_ready _ hr.left hr.right

/-- Settles O16: no effect of the three events writes what the frame names. -/
theorem hostEventsFrame : Obligations.HostEventsFrame := by
  unfold Obligations.HostEventsFrame
  intro s t i hi h
  rcases hi with ⟨x, rfl⟩ | ⟨ch, size, rfl⟩ | ⟨bits, rfl⟩
  · cases exec_effect h with
    | utc => simp
  · cases exec_effect h with
    | assignHeader | assignEmpty | assignHeld => simp
  · cases exec_effect h with
    | dataMore | dataLast | dataHeld => simp

theorem dataWordCount_pos {size : PktLen} (h : 0 < size.toNat) : 0 < dataWordCount size := by
  unfold dataWordCount; omega

theorem exec_assign_channelOutOfRange {s : State} {ch : ChanIx} (size : PktLen) (hr : Ready s)
    (hch : s.cfg.nch ≤ ch.toNat) : exec (.assign ch size) s = .refused .channelOutOfRange := by
  obtain ⟨hf, ha⟩ := hr
  simp [exec, execAssign, hf, ha, channelInRange, hch]

theorem exec_assign_sizeOutOfRange {s : State} {ch : ChanIx} {size : PktLen} (hr : Ready s)
    (hch : ch.toNat < s.cfg.nch) (hsize : s.cfg.pktMaxBits < size.toNat) :
    exec (.assign ch size) s = .refused .sizeOutOfRange := by
  obtain ⟨hf, ha⟩ := hr
  simp [exec, execAssign, hf, ha, channelInRange, hch, sizeInRange, hsize]

theorem exec_assign_empty {s : State} {ch : ChanIx} (hr : Ready s) (hch : ch.toNat < s.cfg.nch) :
    exec (.assign ch 0#16) s = .next (assignPacket ch 0#16 [] s) := by
  obtain ⟨hf, ha⟩ := hr
  simp [exec, execAssign, hf, ha, channelInRange, hch, sizeInRange, dataWordCount]

/-- Settles O11: one equation per outcome of the header, and the two outcomes of a hand-over for an empty packet. -/
theorem assignHeaderOutcomes : Obligations.AssignHeaderOutcomes := by
  unfold Obligations.AssignHeaderOutcomes
  intro s ch size hr
  refine ⟨exec_assign_channelOutOfRange size hr, exec_assign_sizeOutOfRange hr,
    fun hch hsize hpos => exec_assign_opens hr hch hsize (dataWordCount_pos hpos),
    fun hch hzero hv => ?_, fun hch hzero hv => ?_⟩
  all_goals obtain rfl : size = 0#16 := BitVec.eq_of_toNat_eq hzero
  · rw [exec_assign_empty hr hch, assignPacket_empty _ _ _ hv]; rfl
  · rw [exec_assign_empty hr hch, assignPacket_held _ _ _ hv]; rfl

section
variable {s : State} {a : Arriving} {bits : Arg}

theorem exec_data_paddingNotZero (hf : s.fault = .none) (ha : s.arriving = some a)
    (hlast : dataWordCount a.size ≤ a.got.length + 1) (hpad : paddingZero a.size (a.got ++ [bits]) = false) :
    exec (.data bits) s = .refused .paddingNotZero := by
  simp [exec, execData, hf, ha, Nat.not_lt.mpr hlast, hpad]

theorem exec_data_last (hf : s.fault = .none) (ha : s.arriving = some a)
    (hlast : dataWordCount a.size ≤ a.got.length + 1) (hpad : paddingZero a.size (a.got ++ [bits]) = true) :
    exec (.data bits) s =
      .next (assignPacket a.ch a.size (packetBits a.size (a.got ++ [bits])) { s with arriving := none }) := by
  simp [exec, execData, hf, ha, Nat.not_lt.mpr hlast, hpad]

end

/-- Settles O12: one equation per outcome of the word, and the two outcomes of the hand-over. -/
theorem dataWordOutcomes : Obligations.DataWordOutcomes := by
  unfold Obligations.DataWordOutcomes
  intro s a bits hf ha
  have hinside : { s with arriving := some a } = s := by rw [← ha]
  refine ⟨fun hmore => hinside ▸ exec_data_kept a.ch a.size a.got bits hf hmore, exec_data_paddingNotZero hf ha, fun hlast hpad hv => ?_, fun hlast hpad hv => ?_⟩
  · rw [exec_data_last hf ha hlast hpad, assignPacket_empty _ _ _ (by exact hv), pktMemWith, packetBits_length]
  · rw [exec_data_last hf ha hlast hpad, assignPacket_held _ _ _ (by exact hv)]; rfl

theorem execAll_append (xs ys : List Instr) (s : State) :
    execAll (xs ++ ys) s = andThen (execAll xs s) (execAll ys) := by
  induction xs generalizing s with
  | nil => rfl
  | cons i xs ih =>
    rw [List.cons_append, execAll, execAll]
    cases exec i s with
    | next t => exact ih t
    | fault f => rfl
    | refused x => rfl

/-- All DATA words of an ASSIGN sequence: those before the last are kept, and the last hands the packet over. -/
theorem execAll_data_complete {s : State} (ch : ChanIx) (size : PktLen) {before : List Arg} {last : Arg} (hr : Ready s)
    (hcount : before.length + 1 = dataWordCount size) (hpad : paddingZero size (before ++ [last]) = true) :
    execAll ((before ++ [last]).map .data) { s with arriving := some ⟨ch, size, []⟩ } =
      .next (assignPacket ch size (packetBits size (before ++ [last])) s) := by
  obtain ⟨hf, ha⟩ := hr
  have hclosed : { s with arriving := none } = s := by rw [← ha]
  have hkept := execAll_data_kept ch size [] before hf (by rw [List.length_nil]; omega)
  have hhanded := exec_data_last (s := { s with arriving := some ⟨ch, size, before⟩ }) hf rfl hcount.ge hpad
  rw [List.map_append, execAll_append, hkept, andThen_next, List.map_singleton, List.nil_append, execAll, hhanded,
    andThen_next, execAll, hclosed]

/-- A whole ASSIGN event with its operands in range ends in the hand-over, whether or not a packet is held. -/
theorem execAll_assignSequence {s : State} {ch : ChanIx} {bits : List Bool} (hr : Ready s)
    (hcap : s.cfg.pktMaxBits ≤ 65535) (hch : ch.toNat < s.cfg.nch) (hlen : bits.length ≤ s.cfg.pktMaxBits) :
    execAll (assignSequence ch bits) s = .next (assignPacket ch (BitVec.ofNat 16 bits.length) bits s) := by
  have hlt : bits.length < 65536 := by omega
  have hsize : (BitVec.ofNat 16 bits.length).toNat = bits.length := BitVec.toNat_ofNat .. ▸ Nat.mod_eq_of_lt hlt
  obtain ⟨hcount, -, hpad, hbits⟩ := dataWordsCarryPacketBits bits hlt
  rcases List.eq_nil_or_concat' (dataWordsOf bits) with hnil | ⟨before, last, hwords⟩
  · obtain rfl : bits = [] := by
      rw [hnil, List.length_nil] at hcount
      exact List.length_eq_zero_iff.mp (by omega)
    rw [assignSequence, execAll, hnil, List.length_nil, exec_assign_empty hr hch, andThen_next, List.map_nil, execAll]
  · have hcount' : before.length + 1 = dataWordCount (BitVec.ofNat 16 bits.length) := by
      rw [dataWordCount, hsize, ← hcount, hwords, List.length_append, List.length_singleton]
    rw [assignSequence, execAll, exec_assign_opens hr hch (hsize.trans_le hlen) (by omega), andThen_next, hwords,
      execAll_data_complete ch _ hr hcount' (hwords ▸ hpad), ← hwords, hbits]

/-- Settles O13: the whole event is the hand-over, into the empty slot. -/
theorem assignEventHandsPacketOver : Obligations.AssignEventHandsPacketOver := by
  unfold Obligations.AssignEventHandsPacketOver
  intro s ch bits hr hv hcap hch hlen
  rw [execAll_assignSequence hr hcap hch hlen, assignPacket_empty _ _ _ hv, pktMemWith]

end Sys2Proof.Machine

/-! ### The gate and the transmit start (41_mode_switch_cca.md R101 to R117) -/

namespace Sys2Proof.Machine

section
variable {s : State} {pos : BitPos} {rssi nf : Rssi} {fault : Bool}

theorem exec_tick_receiving (pos : BitPos) (rssi nf : Rssi) (fault : Bool) (hr : Ready s) (hm : s.mode = .receiving) :
    exec (.tick pos rssi nf fault) s = (verdict pos rssi nf s).outcome fault (ticked pos s) := by
  obtain ⟨hf, ha⟩ := hr
  simp [exec, execTick, hf, ha, hm, tickReceiving_eq_outcome]

theorem stale_iff : stale s = true ↔ age s > s.cfg.maxAge.toNat := decide_eq_true_iff

theorem channelClear_iff : channelClear rssi nf = true ↔ rssi.toNat ≤ nf.toNat + 12 := decide_eq_true_iff

theorem intervalElapsed_iff : intervalElapsed s = true ↔ elapsed s ≥ s.cfg.minTxInterval.toNat := decide_eq_true_iff

theorem timeKnown_iff : timeKnown s = true ↔ s.utc ≠ 0#32 := bne_iff_ne

/-- Conditions 1, 2 and 3 leave the verdict to test mode and the normal-mode policy, in the order of R105. -/
theorem verdict_of_aligned (rssi nf : Rssi) (h : Aligned s pos) :
    verdict pos rssi nf s =
      if s.cfg.testMode = true then .start
      else if s.utc = 0#32 then .hold
      else if age s > s.cfg.maxAge.toNat then .discard
      else if rssi.toNat > nf.toNat + 12 then .hold
      else if elapsed s ≥ s.cfg.minTxInterval.toNat then .start
      else .hold := by
  obtain ⟨hv, hp, hc⟩ := h
  simp [verdict, onPacketChannel, hv, hp, hc, ← Bool.not_eq_true, timeKnown_iff, stale_iff, channelClear_iff,
    intervalElapsed_iff]

theorem verdict_of_startAllowed (hal : Aligned s pos) (hst : StartAllowed s rssi nf) :
    verdict pos rssi nf s = .start := by
  rw [verdict_of_aligned rssi nf hal]
  rcases hst with htest | ⟨hknown, hage, hclear, helapsed⟩
  · rw [if_pos htest]
  · rw [if_neg hknown, if_neg (not_lt.mpr hage), if_neg (not_lt.mpr hclear), if_pos helapsed, ite_self]

theorem not_startAllowed_of_stale (hnormal : s.cfg.testMode = false) (hage : age s > s.cfg.maxAge.toNat) :
    ¬ StartAllowed s rssi nf := by
  rintro (htest | ⟨-, hfresh, -, -⟩)
  · cases hnormal.symm.trans htest
  · exact absurd hage (not_lt.mpr hfresh)

end

/-- Settles O17: the verdict of an unaligned tick is to hold. -/
theorem unalignedTickOnlyDelegates : Obligations.UnalignedTickOnlyDelegates := by
  unfold Obligations.UnalignedTickOnlyDelegates
  intro s pos rssi nf fault hr hm hal
  rw [exec_tick_receiving pos rssi nf fault hr hm, verdict_of_not_aligned rssi nf hal]
  rfl

/-- The receiving tick whose gate holds is the start sequence after the opening, kept or reverted by the fault answer. -/
theorem exec_tick_start {s : State} {pos : BitPos} {rssi nf : Rssi} {c : Channel} {e : PowerEntry} (fault : Bool)
    (hr : Ready s) (hm : s.mode = .receiving) (hw : 4 ≤ s.cfg.statusW) (hal : Aligned s pos)
    (hst : StartAllowed s rssi nf) (hc : s.cfg.channels[s.pktChan.toNat]? = some c)
    (he : s.cfg.powerTable[s.cfg.txPowerLevel]? = some e) :
    exec (.tick pos rssi nf fault) s =
      .next (if fault then txStartFailed (started e c (ticked pos s)) else started e c (ticked pos s)) := by
  rw [exec_tick_receiving pos rssi nf fault hr hm, verdict_of_startAllowed hal hst]
  exact startTransmitting_some fault he hc hw

/-- The start sequence after the opening of a tick, in the statements' words. -/
theorem started_ticked (e : PowerEntry) (c : Channel) (pos : BitPos) (s : State) :
    started e c (ticked pos s) = { s with
      mode      := .transmitting
      bitPos    := pos
      bitPinDir := .output
      paBias    := true
      chip      := ⟨withPower s.cfg e s.chip.props, transmitPins s.cfg.chip⟩
      trace     := s.trace ++ [.rxOnBitClock] ++ keyActions s.cfg e ++
        startActions s.cfg c.ordinal s.cfg.chip.txCondNormal } := rfl

/-- Settles O18: the start is kept. -/
theorem alignedTickStartsTransmission : Obligations.AlignedTickStartsTransmission := by
  unfold Obligations.AlignedTickStartsTransmission
  intro s pos rssi nf c e hr hm hw hal hst hc he
  rw [exec_tick_start false hr hm hw hal hst hc he, started_ticked]
  rfl

/-- Settles O19: the start is reverted. -/
theorem rejectedStartReverts : Obligations.RejectedStartReverts := by
  unfold Obligations.RejectedStartReverts
  intro s pos rssi nf c e hr hm hw hal hst hc he
  rw [exec_tick_start true hr hm hw hal hst hc he, started_ticked, if_pos rfl, txStartFailed_eq]
  simp only [rxPins_eq, enterActions, List.append_assoc, List.singleton_append]

theorem exec_tick_stale {s : State} {pos : BitPos} (rssi nf : Rssi) (fault : Bool) (hr : Ready s)
    (hm : s.mode = .receiving) (hnormal : s.cfg.testMode = false) (hal : Aligned s pos) (hknown : s.utc ≠ 0#32)
    (hage : age s > s.cfg.maxAge.toNat) :
    exec (.tick pos rssi nf fault) s = .next (discardStale (ticked pos s)) := by
  rw [exec_tick_receiving pos rssi nf fault hr hm, verdict_of_aligned rssi nf hal, if_neg (ne_true_of_eq_false hnormal),
    if_neg hknown, if_pos hage]
  rfl

/-- Settles O20: the age test comes before those of the channel and the interval. -/
theorem stalePacketDiscarded : Obligations.StalePacketDiscarded := by
  unfold Obligations.StalePacketDiscarded
  intro s pos rssi nf fault hr hm hnormal hal hknown hage
  rw [exec_tick_stale rssi nf fault hr hm hnormal hal hknown hage, discardStale_eq]
  simp [ticked, State.emit, packetAge, age]

/-- Settles O21: with time unknown, or a fresh packet and one of the two other conditions failing, the verdict is to hold. -/
theorem gateHoldsBack : Obligations.GateHoldsBack := by
  unfold Obligations.GateHoldsBack
  intro s pos rssi nf fault hr hm hnormal hal hcase
  have hhold : verdict pos rssi nf s = .hold := by
    rw [verdict_of_aligned rssi nf hal, if_neg (ne_true_of_eq_false hnormal)]
    rcases hcase with hunknown | ⟨hfresh, hbusy | hsoon⟩
    · rw [if_pos hunknown]
    · rw [if_neg (not_lt.mpr hfresh), if_pos hbusy, ite_self]
    · rw [if_neg (not_lt.mpr hfresh), if_neg (not_le.mpr hsoon), ite_self, ite_self]
  rw [exec_tick_receiving pos rssi nf fault hr hm, hhold]
  rfl

/-! ### What the gate guards, over all events (R115, R116, R117) -/

/-- The event is a receiving tick at which the gate holds, test mode included. -/
def PassesGate (s : State) (i : Instr) : Prop :=
  ∃ pos rssi nf fault, i = .tick pos rssi nf fault ∧ s.mode = .receiving ∧ Aligned s pos ∧ StartAllowed s rssi nf

/-- The one effect that leads from RECEIVING into TRANSMITTING is the start. -/
theorem Effect.passesGate_of_transmits {s t : State} {i : Instr} (h : Effect s i t) (hm : s.mode = .receiving)
    (hm' : t.mode = .transmitting) : PassesGate s i := by
  cases h
  case tickStart hal hst _ => exact ⟨_, _, _, _, rfl, hm, hal, hst⟩
  case tickRejected | tickComplete => cases hm'
  all_goals cases hm.symm.trans hm'

/-- Of the events only the start, kept or rejected, and the carrier test send START_TX. -/
theorem Effect.startsWithCondition {s t : State} {i : Instr} {acts : List Action} {condition : Byte} (h : Effect s i t)
    (hevent : isEvent i = true) (htr : t.trace = s.trace ++ acts) (hst : StartsWithCondition acts condition) :
    PassesGate s i ∨ (isTick i = false ∧ condition = s.cfg.chip.txCondCw) := by
  obtain ⟨channel, length, delay, reps, hmem⟩ := hst
  cases h
  case tickStart hm hal hst _ | tickRejected hm hal hst _ => exact .inl ⟨_, _, _, _, rfl, hm, hal, hst⟩
  case cwtest ordinal _ _ _ =>
    obtain rfl := List.append_cancel_left htr
    obtain ⟨-, hcw, -⟩ : channel = ordinal ∧ condition = s.cfg.chip.txCondCw ∧ length = 0#8 ∧ delay = 0#8 ∧
        reps = s.cfg.chip.txRepeat := by simpa [enterActions, keyActions, startActions] using hmem
    exact .inr ⟨rfl, hcw⟩
  case setProperty | gpioPinCfg | startTx | getChipStatus => cases hevent
  case utc | assignHeader | assignEmpty | dataMore | dataLast =>
    obtain rfl := List.self_eq_append_right.mp htr
    cases hmem
  all_goals
    obtain rfl := List.append_cancel_left htr
    simp [enterActions] at hmem

/-- Settles O22: the mode is raised by the start alone, and the packet's condition code is not the carrier test's. -/
theorem transmissionOnlyThroughGate : Obligations.TransmissionOnlyThroughGate := by
  unfold Obligations.TransmissionOnlyThroughGate
  rintro s t i acts hevent h htr (⟨hm, hm'⟩ | ⟨hst, hcodes⟩)
  · exact (exec_effect h).passesGate_of_transmits hm hm'
  · exact ((exec_effect h).startsWithCondition hevent htr hst).resolve_right fun ⟨_, hcw⟩ => hcodes hcw

/-- Settles O23: no tick with a stale packet passes the gate, and the aligned one discards it. -/
theorem stalePacketNeverTransmitted : Obligations.StalePacketNeverTransmitted := by
  unfold Obligations.StalePacketNeverTransmitted
  intro s t pos rssi nf fault acts hnormal hage h htr
  refine ⟨fun condition hst => ?_, fun hm hal hknown => ?_⟩
  · obtain ⟨_, _, _, _, -, -, -, hallowed⟩ | ⟨hnotick, -⟩ := (exec_effect h).startsWithCondition rfl htr hst
    · exact not_startAllowed_of_stale hnormal hage hallowed
    · cases hnotick
  · obtain ⟨hf, ha, -⟩ := execTick_eq_next h
    cases h.symm.trans (stalePacketDiscarded s pos rssi nf fault ⟨hf, ha⟩ hm hnormal hal hknown hage)
    obtain rfl := List.append_cancel_left htr
    exact ⟨rfl, hm, by simp⟩

/-- Only a start asks for the chip's status, and with the fault bit set it is the rejected one. -/
theorem Effect.rejected_of_getChipStatus {s t : State} {pos : BitPos} {rssi nf : Rssi} {acts : List Action}
    (h : Effect s (.tick pos rssi nf true) t) (hw : 4 ≤ s.cfg.statusW) (htr : t.trace = s.trace ++ acts)
    (hask : Action.cmd .getChipStatus ∈ acts) : t.mode = .receiving ∧ t.pktValid = true ∧ t.paBias = false := by
  cases h
  case tickStart hclear => cases hclear hw
  case tickRejected hal _ _ =>
    obtain ⟨hv, -, -⟩ := hal
    exact ⟨rfl, hv, rfl⟩
  case tickIdle | tickDiscard | tickShift | tickComplete =>
    obtain rfl := List.append_cancel_left htr
    simp [enterActions] at hask

/-- Settles O24: the rejected start leaves the block so. -/
theorem faultBitEndsInReceiving : Obligations.FaultBitEndsInReceiving := by
  unfold Obligations.FaultBitEndsInReceiving
  exact fun _ _ _ _ _ _ hw h htr hask => (exec_effect h).rejected_of_getChipStatus hw htr hask

/-! ### The frame of TICK (R101, R120, R122, R123) -/

/-- Sending a power entry writes its three bytes and no other property. -/
theorem read_withPower_outside (c : Cfg) (e : PowerEntry) (m : Memory) {address : Nat}
    (h : address < powerAddress c ∨ powerAddress c + 3 ≤ address) :
    (withPower c e m).read address = m.read address := Memory.read_writeBytes_outside m _ _ _ h

theorem Effect.tick_frame {s t : State} {pos : BitPos} {rssi nf : Rssi} {fault : Bool}
    (h : Effect s (.tick pos rssi nf fault) t) :
    t.utc = s.utc ∧ t.pktChan = s.pktChan ∧ t.pktTs = s.pktTs ∧ t.pktSize = s.pktSize ∧ t.pktMem = s.pktMem ∧
    t.fault = s.fault ∧ t.cfg = s.cfg ∧ t.arriving = s.arriving ∧ t.port = s.port := by
  cases h with
  | tickIdle | tickDiscard | tickStart | tickRejected | tickShift | tickComplete => simp

theorem Effect.tick_frame_transmitting {s t : State} {pos : BitPos} {rssi nf : Rssi} {fault : Bool}
    (h : Effect s (.tick pos rssi nf fault) t) (hm : s.mode = .transmitting) :
    t.bitPos = s.bitPos ∧ ∀ address, t.chip.props.read address = s.chip.props.read address := by
  cases h
  case tickShift | tickComplete => exact ⟨rfl, fun _ => rfl⟩
  case tickIdle hr | tickDiscard hr _ _ _ _ | tickStart hr _ _ _ | tickRejected hr _ _ _ => cases hr.symm.trans hm

theorem Effect.tick_frame_receiving {s t : State} {pos : BitPos} {rssi nf : Rssi} {fault : Bool}
    (h : Effect s (.tick pos rssi nf fault) t) (hm : s.mode = .receiving) :
    t.bitPos = pos ∧ t.lastTx = s.lastTx ∧ t.txLine = s.txLine ∧ t.pktCur = s.pktCur ∧ t.chan = s.chan ∧
    ∀ address, address < powerAddress s.cfg ∨ powerAddress s.cfg + 3 ≤ address →
      t.chip.props.read address = s.chip.props.read address := by
  cases h
  case tickIdle | tickDiscard => exact ⟨rfl, rfl, rfl, rfl, rfl, fun _ _ => rfl⟩
  case tickStart | tickRejected => exact ⟨rfl, rfl, rfl, rfl, rfl, fun _ => read_withPower_outside _ _ _⟩
  case tickShift ht _ _ | tickComplete ht _ => cases ht.symm.trans hm

/-- Settles O32: in both modes no effect of the tick writes what the frame names. -/
theorem tickFrame : Obligations.TickFrame := by
  unfold Obligations.TickFrame
  intro s t pos rssi nf fault h
  have heffect := exec_effect h
  obtain ⟨hutc, hchan, hts, hsize, hmem, hfault, hcfg, harriving, hport⟩ := heffect.tick_frame
  exact ⟨hutc, hchan, hts, hsize, hmem, hfault, hcfg, harriving, hport, heffect.tick_frame_transmitting,
    heffect.tick_frame_receiving⟩

end Sys2Proof.Machine

/-! ### A tick in TRANSMITTING (42_tx_shift.md R120, R122, R123) -/

namespace Sys2Proof.Machine

/-- A transmitting tick is the same event whatever its operands. -/
theorem exec_tick_transmitting {s : State} (pos : BitPos) (rssi nf : Rssi) (fault : Bool)
    (hm : s.mode = .transmitting) :
    exec (.tick pos rssi nf fault) s = admitEvent s (tickTransmitting s) := by
  simp only [exec, execTick, hm]

/-- Settles O29: the event does not name the operands. -/
theorem transmittingTickIgnoresFields : Obligations.TransmittingTickIgnoresFields := by
  unfold Obligations.TransmittingTickIgnoresFields
  intro s pos pos' rssi nf rssi' nf' fault fault' hm
  rw [exec_tick_transmitting pos rssi nf fault hm, exec_tick_transmitting pos' rssi' nf' fault' hm]

/-- Settles O26: the tick shifts the bit at the cursor. -/
theorem shiftDrivesOneBit : Obligations.ShiftDrivesOneBit := by
  unfold Obligations.ShiftDrivesOneBit
  exact fun _ pos rssi nf fault _ hr hm hne hb => exec_tick_shift pos rssi nf fault hr hm hne hb

theorem exec_tick_complete {s : State} (pos : BitPos) (rssi nf : Rssi) (fault : Bool) (hr : Ready s)
    (hm : s.mode = .transmitting) (he : s.pktCur = s.pktSize) :
    exec (.tick pos rssi nf fault) s = .next (txComplete s) := by
  obtain ⟨hf, ha⟩ := hr
  simp [exec_tick_transmitting pos rssi nf fault hm, hf, ha, tickTransmitting, endOfFrame, he]

/-- Settles O28: the tick completes. -/
theorem endOfFrameCompletes : Obligations.EndOfFrameCompletes := by
  unfold Obligations.EndOfFrameCompletes
  intro s pos rssi nf fault hr hm he
  rw [exec_tick_complete pos rssi nf fault hr hm he, txComplete_eq, rxPins_eq]
  simp only [enterActions, List.append_assoc, List.cons_append, List.nil_append]

/-! ### TRANSMITTING over all instructions (R124) -/

/-- Of the effects found in TRANSMITTING only the completion ends in RECEIVING. -/
theorem Effect.completes_of_leaves_transmitting {s t : State} {i : Instr} (h : Effect s i t)
    (hm : s.mode = .transmitting) (hm' : t.mode = .receiving) :
    isTick i = true ∧ s.pktCur = s.pktSize ∧ t.pktValid = false := by
  cases h
  case tickComplete he => exact ⟨rfl, he, rfl⟩
  case tickRejected hr _ _ _ => cases hr.symm.trans hm
  case tickStart => cases hm'
  all_goals cases hm.symm.trans hm'

/-- Settles O54: the one effect that leaves the mode is the completion. -/
theorem transmissionLeftOnlyAtEndOfFrame : Obligations.TransmissionLeftOnlyAtEndOfFrame := by
  unfold Obligations.TransmissionLeftOnlyAtEndOfFrame
  exact fun _ _ _ hm h hm' => (exec_effect h).completes_of_leaves_transmitting hm hm'

/-! ### The bits on the line (R24, R125) -/

theorem pinLevels_append (xs ys : List Action) : pinLevels (xs ++ ys) = pinLevels xs ++ pinLevels ys :=
  List.filterMap_append

/-- Actions that are no levels leave the bits driven as they are. -/
theorem pinLevels_append_silent (xs : List Action) {ys : List Action} (h : pinLevels ys = []) :
    pinLevels (xs ++ ys) = pinLevels xs := by
  rw [pinLevels_append, h, List.append_nil]

theorem pinLevels_started (e : PowerEntry) (c : Channel) (pos : BitPos) (s : State) :
    pinLevels (started e c (ticked pos s)).trace = pinLevels s.trace := by
  rw [started_ticked, List.append_assoc, List.append_assoc]
  exact pinLevels_append_silent s.trace rfl

theorem pinLevels_txComplete (s : State) : pinLevels (txComplete s).trace = pinLevels s.trace := by
  rw [txComplete_eq]
  exact pinLevels_append_silent s.trace rfl

/-- `t` is reached from `s` inside one transmission by driving the next `n` bits of the packet: what holds between two
events of a transmission. -/
structure ShiftedBy (n : Nat) (s t : State) : Prop where
  ready    : Ready t
  mode     : t.mode = .transmitting
  pktCur   : t.pktCur.toNat = s.pktCur.toNat + n
  pktMem   : t.pktMem = s.pktMem
  pktSize  : t.pktSize = s.pktSize
  pktChan  : t.pktChan = s.pktChan
  pktValid : t.pktValid = s.pktValid
  lastTx   : t.lastTx = s.lastTx
  levels   : pinLevels t.trace = pinLevels s.trace ++ (s.pktMem.drop s.pktCur.toNat).take n

/-- The bits driven by one stretch and by the next are those of the two together. -/
theorem ShiftedBy.trans {m n : Nat} {s u t : State} (h : ShiftedBy m s u) (h' : ShiftedBy n u t) :
    ShiftedBy (m + n) s t where
  ready := h'.ready
  mode := h'.mode
  pktCur := by rw [h'.pktCur, h.pktCur, Nat.add_assoc]
  pktMem := h'.pktMem.trans h.pktMem
  pktSize := h'.pktSize.trans h.pktSize
  pktChan := h'.pktChan.trans h.pktChan
  pktValid := h'.pktValid.trans h.pktValid
  lastTx := h'.lastTx.trans h.lastTx
  levels := by
    rw [h'.levels, h.levels, h.pktMem, h.pktCur, List.append_assoc, List.take_add, List.drop_drop]

section
variable {s : State} (hr : Ready s) (hm : s.mode = .transmitting)
include hr hm

/-- A new time, and a record with no further level, leave the transmission where it is. -/
theorem shiftedBy_zero (x : Time) {acts : List Action} (hacts : pinLevels acts = pinLevels s.trace) :
    ShiftedBy 0 s { s with utc := x, trace := acts } :=
  ⟨hr, hm, rfl, rfl, rfl, rfl, rfl, rfl, by rw [hacts, List.take_zero, List.append_nil]⟩

theorem exec_slot_transmitting (slot : SlotNo) :
    exec (.slot slot) s = .next { s with trace := s.trace ++ [.rxTimeSlotStarted slot] } := by
  obtain ⟨hf, ha⟩ := hr
  simp [exec, execSlot, hf, ha, retuneDue, State.emit, hm]

/-- Before end-of-frame a tick drives the bit at the cursor. -/
theorem exec_tick_shiftedBy_one (pos : BitPos) (rssi nf : Rssi) (fault : Bool)
    (hlt : s.pktCur.toNat < s.pktSize.toNat) (hmem : s.pktSize.toNat ≤ s.pktMem.length) :
    ∃ t, exec (.tick pos rssi nf fault) s = .next t ∧ ShiftedBy 1 s t := by
  have hcur : s.pktCur.toNat < s.pktMem.length := by omega
  have hne : s.pktCur ≠ s.pktSize := fun h => by rw [h] at hlt; omega
  have hsucc : (s.pktCur + 1#16).toNat = s.pktCur.toNat + 1 :=
    BitVec.toNat_add_of_lt (by have := s.pktSize.isLt; simp; omega)
  refine ⟨_, exec_tick_shift pos rssi nf fault hr hm hne (List.getElem?_eq_getElem hcur),
    hr, hm, hsucc, rfl, rfl, rfl, rfl, rfl, ?_⟩
  rw [pinLevels_append, List.drop_eq_getElem_cons hcur]
  rfl

/-- One notification of a transmission: a tick drives one bit, SLOT and UTC drive none. -/
theorem exec_notification_shiftedBy {i : Instr} (hi : isNotification i = true)
    (hmem : s.pktSize.toNat ≤ s.pktMem.length) (hleft : s.pktCur.toNat + [i].countP isTick ≤ s.pktSize.toNat) :
    ∃ t, exec i s = .next t ∧ ShiftedBy ([i].countP isTick) s t := by
  cases i
  case tick pos rssi nf fault => exact exec_tick_shiftedBy_one hr hm pos rssi nf fault hleft hmem
  case slot n =>
    exact ⟨_, exec_slot_transmitting hr hm n, shiftedBy_zero hr hm s.utc (pinLevels_append_silent s.trace rfl)⟩
  case utc x => exact ⟨_, utcWritesTimeOnly s x hr, shiftedBy_zero hr hm x rfl⟩
  all_goals cases hi

end

/-- Any notifications with no more ticks among them than bits left. -/
theorem execAll_notifications_shiftedBy {s : State} {events : List Instr} (hr : Ready s) (hm : s.mode = .transmitting)
    (hmem : s.pktSize.toNat ≤ s.pktMem.length) (hleft : s.pktCur.toNat + events.countP isTick ≤ s.pktSize.toNat)
    (hall : events.all isNotification = true) :
    ∃ t, execAll events s = .next t ∧ ShiftedBy (events.countP isTick) s t := by
  induction events generalizing s with
  | nil => exact ⟨s, rfl, shiftedBy_zero hr hm s.utc rfl⟩
  | cons i rest ih =>
    have hcount : (i :: rest).countP isTick = [i].countP isTick + rest.countP isTick := List.countP_append (l₁ := [i])
    rw [List.all_cons, Bool.and_eq_true] at hall
    obtain ⟨u, hu, hfirst⟩ := exec_notification_shiftedBy hr hm hall.1 hmem (by omega)
    obtain ⟨t, ht, hrest⟩ := ih hfirst.ready hfirst.mode (by rwa [hfirst.pktSize, hfirst.pktMem])
      (by rw [hfirst.pktCur, hfirst.pktSize]; omega) hall.2
    exact ⟨t, by rw [execAll, hu, andThen_next, ht], hcount ▸ hfirst.trans hrest⟩

/-- Settles O30: the run drives as many bits as it holds ticks. -/
theorem transmissionShiftsBitsInOrder : Obligations.TransmissionShiftsBitsInOrder := by
  unfold Obligations.TransmissionShiftsBitsInOrder
  intro s events hr hm hmem hleft hall
  obtain ⟨t, ht, hshift⟩ := execAll_notifications_shiftedBy hr hm hmem hleft hall
  exact ⟨t, ht, hshift.mode, hshift.pktCur, hshift.pktMem, hshift.pktSize, hshift.pktValid, hshift.lastTx,
    hshift.levels⟩

/-! ### The length of a transmission (R126) -/

theorem exists_tick_of_isTick {i : Instr} (h : isTick i = true) :
    ∃ pos rssi nf fault, i = .tick pos rssi nf fault := by
  cases i
  case tick pos rssi nf fault => exact ⟨pos, rssi, nf, fault, rfl⟩
  all_goals cases h

theorem isNotification_of_isTick {i : Instr} (h : isTick i = true) : isNotification i = true := by
  obtain ⟨_, _, _, _, rfl⟩ := exists_tick_of_isTick h
  rfl

theorem execAll_ticks_utc {s t : State} {events : List Instr} (hall : ∀ i ∈ events, isTick i = true)
    (h : execAll events s = .next t) : t.utc = s.utc := by
  induction events generalizing s with
  | nil => cases h; rfl
  | cons i rest ih =>
    obtain ⟨hi, hrest⟩ := List.forall_mem_cons.mp hall
    obtain ⟨_, _, _, _, rfl⟩ := exists_tick_of_isTick hi
    obtain ⟨u, hu, ht⟩ := andThen_eq_next h
    obtain ⟨hutc, -⟩ := (exec_effect hu).tick_frame
    rw [ih hrest ht, hutc]

/-- One tick for each of the `n` bits left, and the tick that finds end-of-frame. -/
theorem execAll_ticks_complete {s : State} {events : List Instr} {n : Nat} (hr : Ready s) (hm : s.mode = .transmitting)
    (hmem : s.pktSize.toNat ≤ s.pktMem.length) (hleft : s.pktCur.toNat + n = s.pktSize.toNat)
    (hlen : events.length = n + 1) (hall : ∀ i ∈ events, isTick i = true) :
    ∃ u, execAll events s = .next (txComplete u) ∧ u.utc = s.utc ∧ ShiftedBy n s u := by
  rcases List.eq_nil_or_concat' events with rfl | ⟨shifts, last, rfl⟩
  · cases hlen
  obtain ⟨hshifts, hlast⟩ := List.forall_mem_append.mp hall
  obtain ⟨pos, rssi, nf, fault, rfl⟩ := exists_tick_of_isTick (hlast last (List.mem_singleton_self last))
  have hcount : shifts.countP isTick = n :=
    (List.countP_eq_length.mpr hshifts).trans (by simpa using hlen)
  obtain ⟨u, hu, hshift⟩ := execAll_notifications_shiftedBy hr hm hmem (by rw [hcount, hleft])
    (List.all_eq_true.mpr fun i hi => isNotification_of_isTick (hshifts i hi))
  rw [hcount] at hshift
  have hend : u.pktCur = u.pktSize := BitVec.eq_of_toNat_eq (by rw [hshift.pktCur, hshift.pktSize, hleft])
  refine ⟨u, ?_, execAll_ticks_utc hshifts hu, hshift⟩
  rw [execAll_append, hu, andThen_next, execAll, exec_tick_complete pos rssi nf fault hshift.ready hshift.mode hend]
  rfl

/-- A configuration in the ranges of R6 has a power entry for the packet start, and a reply that holds the fault bit. -/
theorem Cfg.startEntry_of_wf {c : Cfg} (h : c.wf = true) :
    4 ≤ c.statusW ∧ ∃ e, c.powerTable[c.txPowerLevel]? = some e := by
  simp only [Cfg.wf, Bool.and_eq_true, decide_eq_true_eq] at h
  obtain ⟨⟨⟨-, hlevel⟩, -⟩, hw⟩ := h
  exact ⟨hw, _, List.getElem?_eq_getElem hlevel⟩

/-- Settles O31: the start, one tick for each bit, and the tick that finds end-of-frame. -/
theorem transmissionTakesSizePlusTwoTicks : Obligations.TransmissionTakesSizePlusTwoTicks := by
  unfold Obligations.TransmissionTakesSizePlusTwoTicks
  intro s pos rssi nf events hr hi hm hal hst hlen hall
  have ⟨hv, _, hchan⟩ := hal
  obtain ⟨hw, e, he⟩ := Cfg.startEntry_of_wf hi.cfgInRange
  obtain ⟨c, hc⟩ : ∃ c, s.cfg.channels[s.pktChan.toNat]? = some c :=
    ⟨_, List.getElem?_eq_getElem (hi.pktChanInTable hv)⟩
  have hstart : exec (.tick pos rssi nf false) s = .next (started e c (ticked pos s)) :=
    exec_tick_start false hr hm hw hal hst hc he
  have hcur : s.pktCur = 0#16 := hi.cursorZero hv hm
  have hmem : s.pktSize.toNat ≤ s.pktMem.length := hi.memLength ▸ hi.sizeFits hv
  obtain ⟨u, hu, hutc, hshift⟩ := execAll_ticks_complete (s := started e c (ticked pos s)) hr rfl hmem
    (show s.pktCur.toNat + s.pktSize.toNat = s.pktSize.toNat by simp [hcur]) hlen (List.all_eq_true.mp hall)
  have hbits : pinLevels u.trace = pinLevels s.trace ++ s.pktMem.take s.pktSize.toNat :=
    calc pinLevels u.trace
      _ = pinLevels (started e c (ticked pos s)).trace ++ (s.pktMem.drop s.pktCur.toNat).take s.pktSize.toNat :=
          hshift.levels
      _ = _ := by rw [pinLevels_started, hcur]; rfl
  refine ⟨txComplete u, by rw [execAll, hstart, andThen_next, hu], ?_⟩
  rw [pinLevels_txComplete, hbits, txComplete_eq]
  exact ⟨rfl, rfl, rfl, rfl, hutc, hshift.pktChan.trans hchan, rfl⟩

end Sys2Proof.Machine

/-! ### SLOT, STARTRX, and who writes CHAN (43_slot_coordinator.md R130, R132 to R134) -/

namespace Sys2Proof.Machine

/-- Settles O35: of the effects of the two events none writes another register or a chip property. -/
theorem slotEventsFrame : Obligations.SlotEventsFrame := by
  unfold Obligations.SlotEventsFrame
  rintro s t i (⟨n, rfl⟩ | ⟨ch, rfl⟩) h
  · cases exec_effect h with
    | slotOnly | slotRetune => exact ⟨rfl, fun _ => rfl⟩
  · cases exec_effect h with
    | startrx => exact ⟨rfl, fun _ => rfl⟩

/-- The four effects that change CHAN run EnterReceive on its new value; a rejected start enters reception on the channel
already tuned. -/
theorem Effect.rxStartReceiving_of_chan_ne {s t : State} {i : Instr} {acts : List Action} (h : Effect s i t)
    (htr : t.trace = s.trace ++ acts) (hne : t.chan ≠ s.chan) : Action.rxStartReceiving t.chan ∈ acts := by
  cases h
  case slotRetune | startrx | cwtest | tickComplete =>
    obtain rfl := List.append_cancel_left htr
    simp [enterActions]
  all_goals exact absurd rfl hne

theorem Effect.instr_of_chan_ne {s t : State} {i : Instr} (h : Effect s i t) (hne : t.chan ≠ s.chan) :
    (∃ n, i = .slot n) ∨ (∃ ch, i = .startrx ch) ∨ (∃ ch f, i = .cwtest ch f) ∨
      (isTick i = true ∧ s.mode = .transmitting ∧ s.pktCur = s.pktSize) := by
  cases h
  case slotRetune n _ _ _ => exact .inl ⟨n, rfl⟩
  case startrx ch _ => exact .inr (.inl ⟨ch, rfl⟩)
  case cwtest ch fault _ _ _ _ _ => exact .inr (.inr (.inl ⟨ch, fault, rfl⟩))
  case tickComplete hm he => exact .inr (.inr (.inr ⟨rfl, hm, he⟩))
  all_goals exact absurd rfl hne

/-- Settles O55: the effects that change CHAN are the four that enter reception on another channel. -/
theorem chanWrittenOnlyByEnterReceive : Obligations.ChanWrittenOnlyByEnterReceive := by
  unfold Obligations.ChanWrittenOnlyByEnterReceive
  exact fun _ _ _ _ h htr hne =>
    ⟨(exec_effect h).rxStartReceiving_of_chan_ne htr hne, (exec_effect h).instr_of_chan_ne hne⟩

/-- EnterReceive in the words of the statements. -/
theorem enterReceive_eq_enterActions (ch : ChanIx) (s : State) :
    enterReceive ch s =
      { s with
        paBias    := false
        bitPinDir := .input
        chan      := ch
        chip      := { s.chip with pins := receivePins s.cfg.chip }
        trace     := s.trace ++ enterActions s.cfg ch } := enterReceive_eq ch s

theorem retuneDue_iff {s : State} :
    retuneDue s = true ↔ s.mode = .receiving ∧ s.pktValid = true ∧ s.pktChan ≠ s.chan := by
  simp [retuneDue, and_assoc]

theorem exec_slot {s : State} (slot : SlotNo) (hr : Ready s) :
    exec (.slot slot) s =
      if retuneDue s then .next (enterReceive s.pktChan (s.emit (.rxTimeSlotStarted slot)))
      else .next (s.emit (.rxTimeSlotStarted slot)) :=
  admitEvent_ready _ hr.left hr.right

/-- Settles O33: whether a retune is due decides between the two. -/
theorem slotRetunesToPacketChannel : Obligations.SlotRetunesToPacketChannel := by
  unfold Obligations.SlotRetunesToPacketChannel
  intro s slot hr
  rw [exec_slot slot hr, ← retuneDue_iff]
  refine ⟨fun hdue => ?_, fun hnot => if_neg hnot⟩
  rw [if_pos hdue, enterReceive_eq_enterActions]
  rfl

@[simp] theorem unlessTransmitting_transmitting {s : State} (k : Result) (h : s.mode = .transmitting) :
    unlessTransmitting s k = .refused .whileTransmitting := by
  simp [unlessTransmitting, h]

theorem exec_startrx_channelOutOfRange {s : State} {ch : ChanIx} (hr : Ready s) (hch : s.cfg.nch ≤ ch.toNat) :
    exec (.startrx ch) s = .refused .channelOutOfRange := by
  obtain ⟨hf, ha⟩ := hr
  simp [exec, execStartrx, hf, ha, channelInRange, hch]

theorem exec_startrx_inRange {s : State} {ch : ChanIx} (hr : Ready s) (hch : ch.toNat < s.cfg.nch) :
    exec (.startrx ch) s = unlessTransmitting s (.next (enterReceive ch s)) := by
  obtain ⟨hf, ha⟩ := hr
  simp [exec, execStartrx, hf, ha, channelInRange, hch]

/-- Settles O34: the channel is tested first, then the mode. -/
theorem startrxEntersReceive : Obligations.StartrxEntersReceive := by
  unfold Obligations.StartrxEntersReceive
  refine fun s ch hr => ⟨fun hch hm => ?_, exec_startrx_channelOutOfRange hr, fun hch hm => ?_⟩
  · rw [exec_startrx_inRange hr hch, unlessTransmitting_receiving _ hm, enterReceive_eq_enterActions]
  · rw [exec_startrx_inRange hr hch, unlessTransmitting_transmitting _ hm]

end Sys2Proof.Machine

/-! ### CONFIGURE, SETPWR, CWTEST (44_chip_config.md R146, R150, R151, R153, R156) -/

namespace Sys2Proof.Machine

theorem exec_configure {s : State} (hr : Ready s) :
    exec .configure s = unlessTransmitting s (.next (sendFilter (sendModulation (s.emit .rxConfigure)))) :=
  admitEvent_ready _ hr.left hr.right

/-- The opening of CONFIGURE, in the statements' words: the delegation, then the modulation byte. -/
theorem sendModulation_emit_rxConfigure (s : State) :
    sendModulation (s.emit .rxConfigure) = { s with
      chip  := { s.chip with
        props := s.chip.props.writeBytes (propKey s.cfg.chip.modGroup s.cfg.chip.modStart.toNat)
          [s.cfg.chip.modTypeValue] }
      trace := s.trace ++ [.rxConfigure,
        .cmd (.setProperty s.cfg.chip.modGroup 1#8 s.cfg.chip.modStart [s.cfg.chip.modTypeValue])] } := by
  simp [sendModulation, chipSetProperty, State.emit]

theorem sendFilter_off {s : State} (h : s.cfg.filterShaping = .off) : sendFilter s = s := by
  simp [sendFilter, h]

theorem sendFilter_bt04 {s : State} (h : s.cfg.filterShaping = .bt04) :
    sendFilter s = { s with
      chip  := { s.chip with
        props := s.chip.props.writeBytes (propKey s.cfg.chip.filtGroup s.cfg.chip.filtStart.toNat)
          s.cfg.chip.bt04Coeff.toList }
      trace := s.trace ++
        [.cmd (.setProperty s.cfg.chip.filtGroup 9#8 s.cfg.chip.filtStart s.cfg.chip.bt04Coeff.toList)] } := by
  simp only [sendFilter, h, chipSetProperty, take_bt04Coeff, State.emit]

/-- Settles O36: the mode is tested first, and FILTER_SHAPING decides whether the second command follows. -/
theorem configureSendsModulation : Obligations.ConfigureSendsModulation := by
  unfold Obligations.ConfigureSendsModulation
  intro s hr
  rw [exec_configure hr, sendModulation_emit_rxConfigure]
  refine ⟨fun hm hshape => ?_, fun hm hshape => ?_, unlessTransmitting_transmitting _⟩
  · rw [unlessTransmitting_receiving _ hm, sendFilter_off (by exact hshape)]
  · rw [unlessTransmitting_receiving _ hm, sendFilter_bt04 (by exact hshape)]
    simp only [List.append_assoc, List.cons_append, List.nil_append]

theorem exec_setpwr_levelOutOfRange {s : State} {level : Byte} (hr : Ready s) (hl : s.cfg.npwr ≤ level.toNat) :
    exec (.setpwr level) s = .refused .levelOutOfRange := by
  obtain ⟨hf, ha⟩ := hr
  simp [exec, execSetpwr, hf, ha, levelInRange, hl]

theorem exec_setpwr_inRange {s : State} {level : Byte} (hr : Ready s) (hl : level.toNat < s.cfg.npwr) :
    exec (.setpwr level) s = unlessTransmitting s (setTxPower level.toNat s) := by
  obtain ⟨hf, ha⟩ := hr
  simp [exec, execSetpwr, hf, ha, levelInRange, hl]

/-- Sending a power entry, in the statements' words. -/
theorem sendPower_eq_withPower (e : PowerEntry) (s : State) :
    sendPower e s = { s with
      chip  := { s.chip with props := withPower s.cfg e s.chip.props }
      trace := s.trace ++
        [.cmd (.setProperty s.cfg.chip.paGroup 3#8 s.cfg.chip.paStart [e.mode, e.level, e.biasDuty])] } := rfl

/-- Settles O37: the level is tested first, then the mode; a level with an entry is in range. -/
theorem setpwrSendsPowerEntry : Obligations.SetpwrSendsPowerEntry := by
  unfold Obligations.SetpwrSendsPowerEntry
  refine fun s level hr => ⟨fun e hm he => ?_, exec_setpwr_levelOutOfRange hr, fun hl hm => ?_⟩
  · obtain ⟨hl, -⟩ := List.getElem?_eq_some_iff.mp he
    rw [exec_setpwr_inRange hr hl, unlessTransmitting_receiving _ hm, setTxPower_some he, sendPower_eq_withPower]
  · rw [exec_setpwr_inRange hr hl, unlessTransmitting_transmitting _ hm]

theorem exec_cwtest_channelOutOfRange {s : State} {ch : ChanIx} (fault : Bool) (hr : Ready s)
    (hch : s.cfg.nch ≤ ch.toNat) : exec (.cwtest ch fault) s = .refused .channelOutOfRange := by
  obtain ⟨hf, ha⟩ := hr
  simp [exec, execCwtest, hf, ha, channelInRange, hch]

theorem exec_cwtest_whileTransmitting {s : State} {ch : ChanIx} (fault : Bool) (hr : Ready s)
    (hch : ch.toNat < s.cfg.nch) (hm : s.mode = .transmitting) :
    exec (.cwtest ch fault) s = .refused .whileTransmitting := by
  obtain ⟨hf, ha⟩ := hr
  simp [exec, execCwtest, hf, ha, channelInRange, hch, hm]

theorem exec_cwtest_packetHeld {s : State} {ch : ChanIx} (fault : Bool) (hr : Ready s)
    (hch : ch.toNat < s.cfg.nch) (hm : s.mode = .receiving) (hv : s.pktValid = true) :
    exec (.cwtest ch fault) s = .refused .packetHeld := by
  obtain ⟨hf, ha⟩ := hr
  simp [exec, execCwtest, hf, ha, channelInRange, hch, hm, hv]

/-- With both tables answering, CWTEST is the carrier sequence and the report of the fault bit. -/
theorem exec_cwtest_carrier {s : State} {ch : ChanIx} {c : Channel} {e : PowerEntry} (fault : Bool)
    (hr : Ready s) (hm : s.mode = .receiving) (hw : 4 ≤ s.cfg.statusW) (hv : s.pktValid = false)
    (hc : s.cfg.channels[ch.toNat]? = some c) (he : s.cfg.powerTable[s.cfg.txPowerLevel]? = some e) :
    exec (.cwtest ch fault) s = .next (State.emit (carrier e c ch s) (.log (.cwStatus ch fault))) := by
  obtain ⟨hf, ha⟩ := hr
  obtain ⟨hch, -⟩ := List.getElem?_eq_some_iff.mp hc
  have hcfg : (keyed e (enterReceive ch s)).cfg = s.cfg := by rw [enterReceive_eq, keyed]
  have hkey : configGpiosForTx s.cfg.txPowerLevel (enterReceive ch s) = .next (keyed e (enterReceive ch s)) :=
    configGpiosForTx_some he
  have hstart : startTxOn ch s.cfg.chip.txCondCw (keyed e (enterReceive ch s)) =
      .next (State.emit (keyed e (enterReceive ch s))
        (.cmd (.startTx c.ordinal s.cfg.chip.txCondCw 0#8 0#8 s.cfg.chip.txRepeat))) := startTxOn_some _ hc
  have hstatus : chipGetStatus (State.emit (keyed e (enterReceive ch s))
      (.cmd (.startTx c.ordinal s.cfg.chip.txCondCw 0#8 0#8 s.cfg.chip.txRepeat))) = carrier e c ch s := by
    simp [carrier, chipGetStatus, State.emit]
  have hreport : faultBit (chipReply fault (carrier e c ch s)) = fault := faultBit_chipReply _ _ hw
  simp [exec, execCwtest, hf, ha, channelInRange, hch, hm, hv, hcfg, hkey, hstart, hstatus, hreport]

/-- The carrier sequence, in the statements' words: every field EnterReceive writes but CHAN is written again. -/
theorem carrier_eq (e : PowerEntry) (c : Channel) (ch : ChanIx) (s : State) :
    carrier e c ch s = { s with
      chan      := ch
      bitPinDir := .output
      paBias    := true
      chip      := ⟨withPower s.cfg e s.chip.props, transmitPins s.cfg.chip⟩
      trace     := s.trace ++ enterActions s.cfg ch ++ keyActions s.cfg e ++
        startActions s.cfg c.ordinal s.cfg.chip.txCondCw } := by
  rw [carrier, enterReceive_eq_enterActions]
  rfl

/-- Settles O38: the refusals in the order of the guards, and the carrier sequence past them. -/
theorem cwtestRaisesCarrier : Obligations.CwtestRaisesCarrier := by
  unfold Obligations.CwtestRaisesCarrier
  refine fun s ch fault hr => ⟨fun c e hm hw hv hc he => ?_, exec_cwtest_channelOutOfRange fault hr,
    exec_cwtest_whileTransmitting fault hr, exec_cwtest_packetHeld fault hr⟩
  rw [exec_cwtest_carrier fault hr hm hw hv hc he, carrier_eq]
  rfl

/-- Settles O39: CONFIGURE by its two outcomes of O36, SETPWR by its one effect. -/
theorem chipSetupFrame : Obligations.ChipSetupFrame := by
  unfold Obligations.ChipSetupFrame
  refine ⟨fun s t h => ?_, fun s t level h => ?_⟩
  · obtain ⟨hf, ha, hm, -⟩ := execConfigure_eq_next h
    obtain ⟨hoff, hbt04, -⟩ := configureSendsModulation s ⟨hf, ha⟩
    cases hshape : s.cfg.filterShaping with
    | off =>
      cases h.symm.trans (hoff hm hshape)
      exact ⟨rfl, rfl, fun _ hmod _ => Memory.read_write_other _ _ hmod⟩
    | bt04 =>
      cases h.symm.trans (hbt04 hm hshape)
      refine ⟨rfl, rfl, fun address hmod hfilt => ?_⟩
      have houtside := hfilt rfl
      rw [← Vector.length_toList (xs := s.cfg.chip.bt04Coeff)] at houtside
      exact (Memory.read_writeBytes_outside _ _ _ _ houtside).trans (Memory.read_write_other _ _ hmod)
  · cases exec_effect h with
    | setpwr => exact ⟨rfl, rfl, fun _ => read_withPower_outside _ _ _⟩

/-- Settles O40: the one effect of CWTEST. -/
theorem cwtestFrame : Obligations.CwtestFrame := by
  unfold Obligations.CwtestFrame
  intro s t ch fault h
  cases exec_effect h with
  | cwtest => exact ⟨rfl, fun _ => read_withPower_outside _ _ _⟩

/-! ### The chip commands (20_memory.md R44, 44_chip_config.md R140 to R143, R147) -/

/-- Within a group the addresses run with the index. -/
theorem propKey_add (group : Byte) (start i : Nat) : propKey group (start + i) = propKey group start + i :=
  (Nat.add_assoc _ _ _).symm

/-- A property outside a run of properties has an address outside the run's, because a group spans 512 addresses. -/
theorem propKey_outside {g group : Byte} {index start n : Nat} (hindex : index < 512) (hrun : start + n ≤ 512)
    (h : g ≠ group ∨ index < start ∨ start + n ≤ index) :
    propKey g index < propKey group start ∨ propKey group start + n ≤ propKey g index := by
  unfold propKey
  by_cases hg : g = group
  · subst hg
    have hsame := h.resolve_left (not_not_intro rfl)
    omega
  · have hnat : g.toNat ≠ group.toNat := fun heq => hg (BitVec.eq_of_toNat_eq heq)
    omega

theorem exec_setProperty {s : State} (group count start : Byte) (bytes : List Byte) (hf : s.fault = .none) :
    exec (.setProperty group count start bytes) s = .next (chipSetProperty group count start bytes s) :=
  unlessStopped_running _ hf

/-- A SET_PROPERTY with as many bytes as it announces writes them all. -/
theorem chipSetProperty_props {count : Byte} {bytes : List Byte} (group start : Byte) (s : State)
    (hlen : bytes.length = count.toNat) :
    (chipSetProperty group count start bytes s).chip.props =
      s.chip.props.writeBytes (propKey group start.toNat) bytes := by
  rw [chipSetProperty_chip, List.take_of_length_le hlen.le]

/-- Settles O41: the write of consecutive bytes at the addresses of the properties; the run of them ends below 512. -/
theorem setPropertyWritesProperties : Obligations.SetPropertyWritesProperties := by
  unfold Obligations.SetPropertyWritesProperties
  intro s group count start bytes hf hlen
  have hprops := chipSetProperty_props group start s hlen
  have hother : ∀ address,
      address < propKey group start.toNat ∨ propKey group start.toNat + count.toNat ≤ address →
      (chipSetProperty group count start bytes s).chip.props.read address = s.chip.props.read address := by
    intro address houtside
    rw [hprops]
    exact Memory.read_writeBytes_outside _ _ _ _ (hlen ▸ houtside)
  refine ⟨_, exec_setProperty group count start bytes hf, rfl, rfl, fun i hi => ?_, fun g index hindex houtside => ?_,
    hother⟩
  · rw [State.property, hprops, propKey_add]
    exact Memory.read_writeBytes_inside _ _ _ _ (hlen ▸ hi)
  · have hrun : start.toNat + count.toNat ≤ 512 := by omega
    exact hother _ (propKey_outside hindex hrun houtside)

/-- Settles O42: a block that runs lets the command through. -/
theorem gpioPinCfgSetsPins : Obligations.GpioPinCfgSetsPins := by
  unfold Obligations.GpioPinCfgSetsPins
  exact fun _ _ hf => unlessStopped_running _ hf

/-- Settles O43: a block that runs lets both commands through. -/
theorem startTxAndStatusEmitOneAction : Obligations.StartTxAndStatusEmitOneAction := by
  unfold Obligations.StartTxAndStatusEmitOneAction
  exact fun _ _ _ _ _ _ hf => ⟨unlessStopped_running _ hf, unlessStopped_running _ hf⟩

end Sys2Proof.Machine

/-! ### The fatal assertion and the stopped block (60_exceptions.md R173, R179) -/

namespace Sys2Proof.Machine

/-- Settles O14: the whole event is the hand-over, onto a held packet. -/
theorem doubleAssignEventFaults : Obligations.DoubleAssignEventFaults := by
  unfold Obligations.DoubleAssignEventFaults
  intro s ch bits hr hv hcap hch hlen
  rw [execAll_assignSequence hr hcap hch hlen, assignPacket_held _ _ _ hv]
  rfl

/-- Every meaning, chip commands included, asks first whether the block is stopped. -/
theorem exec_stopped {s : State} (i : Instr) (hf : s.fault = .doubleAssign) : exec i s = .fault .stopped := by
  cases i with
  | tick | slot | utc | assign | startrx | configure | setpwr | cwtest | data | setProperty | gpioPinCfg | startTx
  | getChipStatus => exact unlessStopped_stopped _ hf

/-- Settles O44: an item that decodes meets the guard of its instruction, any other the guard of the refusal. -/
theorem stoppedBlockHasNoStep : Obligations.StoppedBlockHasNoStep := by
  unfold Obligations.StoppedBlockHasNoStep
  intro s hne
  have hf := stopped_of_fault_ne hne
  refine ⟨fun i => exec_stopped i hf, fun x rest hp => ?_⟩
  cases hd : decode s.cfg.chip x with
  | ok i => rw [step_of_decode hp hd]; exact exec_stopped i hf
  | error e => rw [step_of_undecodable hp hd, unlessStopped_stopped _ hf]

/-! ### What has a step (60_exceptions.md R178, R179)

One rule per guard: a guarded outcome is a next state exactly when the guard lets it through and what it guards is one. -/

/-- The outcome is a next state. -/
def Runs (r : Result) : Prop := ∃ t, r = .next t

@[simp] theorem runs_next (t : State) : Runs (.next t) := ⟨t, rfl⟩

@[simp] theorem not_runs_fault (f : Fault) : ¬ Runs (.fault f) := fun ⟨_, h⟩ => nomatch h

@[simp] theorem not_runs_refused (x : Refusal) : ¬ Runs (.refused x) := fun ⟨_, h⟩ => nomatch h

section
variable {s : State} {k : Result}

@[simp] theorem runs_unlessStopped_iff : Runs (unlessStopped s k) ↔ s.fault = .none ∧ Runs k := by
  cases hf : s.fault with
  | none => simp [hf]
  | doubleAssign => simp [hf]

@[simp] theorem runs_refused_else_iff {p : Prop} [Decidable p] {x : Refusal} :
    Runs (if p then .refused x else k) ↔ ¬ p ∧ Runs k := by
  by_cases hp : p
  · simp [hp]
  · simp [hp]

@[simp] theorem runs_next_else_iff {p : Prop} [Decidable p] {t : State} :
    Runs (if p then .next t else k) ↔ p ∨ Runs k := by
  by_cases hp : p
  · simp [hp]
  · simp [hp]

@[simp] theorem runs_admitEvent_iff : Runs (admitEvent s k) ↔ s.fault = .none ∧ s.arriving = none ∧ Runs k := by
  simp [admitEvent]

@[simp] theorem runs_unlessTransmitting_iff : Runs (unlessTransmitting s k) ↔ s.mode = .receiving ∧ Runs k := by
  cases hm : s.mode with
  | receiving => simp [hm]
  | transmitting => simp [hm]

@[simp] theorem runs_setTxPower_iff {level : Nat} : Runs (setTxPower level s) ↔ level < s.cfg.npwr := by
  constructor
  · rintro ⟨t, h⟩
    obtain ⟨e, he, -⟩ := setTxPower_eq_next h
    exact (List.getElem?_eq_some_iff.mp he).1
  · exact fun hl => ⟨_, setTxPower_some (List.getElem?_eq_getElem hl)⟩

end

/-! ### No table and no packet index is out of range under the invariant -/

namespace State.Inv

variable {s : State}

/-- A held packet's channel is in the table, and the packet start's power level has an entry. -/
theorem runs_startTransmitting (hi : s.Inv) (fault : Bool) (hv : s.pktValid = true) :
    Runs (startTransmitting fault s) := by
  obtain ⟨hw, e, he⟩ := Cfg.startEntry_of_wf hi.cfgInRange
  exact ⟨_, startTransmitting_some fault he (List.getElem?_eq_getElem (hi.pktChanInTable hv)) hw⟩

/-- Only a held packet is started. -/
theorem runs_tickReceiving (hi : s.Inv) (pos : BitPos) (rssi nf : Rssi) (fault : Bool) :
    Runs (tickReceiving pos rssi nf fault s) := by
  rw [tickReceiving_eq_outcome]
  cases hv : s.pktValid with
  | false =>
    have hal : ¬ Aligned s pos := by simp [Aligned, hv]
    rw [verdict_of_not_aligned rssi nf hal]
    exact runs_next _
  | true =>
    cases verdict pos rssi nf s with
    | hold => exact runs_next _
    | discard => exact runs_next _
    | start => exact (hi.ticked pos).runs_startTransmitting fault hv

/-- Before end-of-frame the cursor lies inside PKTMEM. -/
theorem runs_tickTransmitting (hi : s.Inv) (hm : s.mode = .transmitting) : Runs (tickTransmitting s) := by
  simp only [tickTransmitting, runs_next_else_iff]
  by_cases he : s.pktCur = s.pktSize
  · exact .inl (beq_iff_eq.mpr he)
  · exact .inr ⟨_, shiftBit_some (List.getElem?_eq_getElem (hi.cursor_in_mem hm he))⟩

theorem runs_tick_iff (hi : s.Inv) (pos : BitPos) (rssi nf : Rssi) (fault : Bool) :
    Runs (exec (.tick pos rssi nf fault) s) ↔ s.fault = .none ∧ s.arriving = none := by
  cases hm : s.mode with
  | receiving => simp [exec, execTick, hm, hi.runs_tickReceiving]
  | transmitting => simp [exec, execTick, hm, hi.runs_tickTransmitting]

theorem runs_cwtest_iff (hi : s.Inv) (ch : ChanIx) (fault : Bool) :
    Runs (exec (.cwtest ch fault) s) ↔
      (s.fault = .none ∧ s.arriving = none) ∧ ch.toNat < s.cfg.nch ∧ s.mode = .receiving ∧ s.pktValid = false := by
  constructor
  · rintro ⟨t, h⟩
    obtain ⟨hf, ha, hch, hm, hv, -⟩ := execCwtest_eq_next h
    exact ⟨⟨hf, ha⟩, hch, hm, hv⟩
  · rintro ⟨hr, hch, hm, hv⟩
    obtain ⟨hw, e, he⟩ := Cfg.startEntry_of_wf hi.cfgInRange
    exact ⟨_, exec_cwtest_carrier fault hr hm hw hv (List.getElem?_eq_getElem hch) he⟩

end State.Inv

/-- The guards of each instruction, read off its meaning, are the clauses of `admitted`. -/
theorem runs_exec_iff_admitted {s : State} (i : Instr) (hi : s.Inv) : Runs (exec i s) ↔ admitted i s = true := by
  cases i with
  | tick pos rssi nf fault => simp [hi.runs_tick_iff, admitted]
  | slot n => simp [exec, execSlot, admitted]
  | utc x => simp [exec, execUtc, admitted]
  | assign ch size => simp [exec, execAssign, channelInRange, sizeInRange, admitted, and_assoc]
  | startrx ch => simp [exec, execStartrx, channelInRange, admitted, and_assoc]
  | configure => simp [exec, execConfigure, admitted]
  | setpwr level =>
    by_cases hl : level.toNat < s.cfg.npwr
    · simp [exec, execSetpwr, levelInRange, hl, admitted]
    · simp [exec, execSetpwr, levelInRange, hl, admitted]
  | cwtest ch fault => simp [hi.runs_cwtest_iff, admitted, and_assoc]
  | data bits =>
    cases ha : s.arriving with
    | none => simp [exec, execData, ha, admitted]
    | some a => simp [exec, execData, ha, admitted]
  | setProperty | gpioPinCfg | startTx | getChipStatus =>
    simp [exec, execSetProperty, execGpioPinCfg, execStartTx, execGetChipStatus, admitted]

/-- Settles O49: an instruction runs when its guards let it through, since under the invariant nothing behind them is
refused. -/
theorem instructionRunsIffAdmitted : Obligations.InstructionRunsIffAdmitted := by
  unfold Obligations.InstructionRunsIffAdmitted
  exact fun _ i hi => runs_exec_iff_admitted i hi

end Sys2Proof.Machine

/-! ### Order of the bias inside an event, and the reset input (70_reset_and_hazards.md R200, R201, R205) -/

namespace Sys2Proof.Machine

/-- EnterReceive lowers the bias before its RxStartReceiving, whatever the level before it. -/
theorem biasOrdered_enterActions_append (last : Option Bool) (c : Cfg) (ch : ChanIx) (rest : List Action) :
    biasOrdered last (enterActions c ch ++ rest) = biasOrdered (some false) rest := rfl

theorem biasOrdered_enterActions (last : Option Bool) (c : Cfg) (ch : ChanIx) :
    biasOrdered last (enterActions c ch) = true := rfl

/-- ConfigGPIOsForTX ends with the bias up. -/
theorem biasOrdered_keyActions_append (last : Option Bool) (c : Cfg) (e : PowerEntry) (rest : List Action) :
    biasOrdered last (keyActions c e ++ rest) = biasOrdered (some true) rest := rfl

/-- The START_TX is in order where the bias is up. -/
theorem biasOrdered_startActions_append (c : Cfg) (ordinal condition : Byte) (rest : List Action) :
    biasOrdered (some true) (startActions c ordinal condition ++ rest) = biasOrdered (some true) rest := rfl

theorem biasOrdered_startActions (c : Cfg) (ordinal condition : Byte) :
    biasOrdered (some true) (startActions c ordinal condition) = true := rfl

/-- Among the events' effects only the transmit start and the carrier test send a START_TX, behind the keying; every
RxStartReceiving is that of an EnterReceive. -/
theorem Effect.actions_biasOrdered {s t : State} {i : Instr} {acts : List Action} (h : Effect s i t)
    (htr : t.trace = s.trace ++ acts) (hevent : isEvent i = true) : biasOrdered none acts = true := by
  cases h
  case setProperty | gpioPinCfg | startTx | getChipStatus => cases hevent
  case utc | assignHeader | assignEmpty | dataMore | dataLast =>
    obtain rfl := List.self_eq_append_right.mp htr
    rfl
  case tickStart | tickRejected | cwtest | tickComplete | slotRetune | startrx =>
    obtain rfl := List.append_cancel_left htr
    simp only [List.append_assoc, List.cons_append, List.nil_append, biasOrdered, biasOrdered_enterActions,
      biasOrdered_enterActions_append, biasOrdered_keyActions_append, biasOrdered_startActions,
      biasOrdered_startActions_append]
  case tickIdle | tickDiscard | tickShift | slotOnly | assignHeld | dataHeld | configure | configureFilter | setpwr =>
    obtain rfl := List.append_cancel_left htr
    rfl

/-- Settles O56: an event's actions are those of one of the effects. -/
theorem biasOrderedInsideEvent : Obligations.BiasOrderedInsideEvent := by
  unfold Obligations.BiasOrderedInsideEvent
  exact fun _ _ _ _ hevent h htr => (exec_effect h).actions_biasOrdered htr hevent

/-- The guard in front of the reset input lets it through outside a sequence and at the stopped block. -/
theorem step_of_rst_admitted {s : State} {d : ResetDraw} {rest : List Input} (hp : s.port = .rst d :: rest)
    (hidle : s.arriving = none ∨ s.fault ≠ .none) : step s = .next (applyReset d { s with port := rest }) := by
  rw [step_of_rst hp]
  rcases hidle with ha | hf
  · exact unlessCutShort_whole _ ha
  · exact unlessCutShort_stopped _ (stopped_of_fault_ne hf)

theorem applyReset_chan_of_inTable {d : ResetDraw} {s : State} (h : d.chan.toNat < s.cfg.nch) :
    (applyReset d s).chan = d.chan := if_pos h

theorem applyReset_pktMem_length (d : ResetDraw) (s : State) : (applyReset d s).pktMem.length = s.cfg.pktMaxBits :=
  resetWith_memLength s.cfg d s.chip.pins

theorem getElem?_applyReset_pktMem (d : ResetDraw) (s : State) {j : Nat} (hj : j < s.cfg.pktMaxBits) :
    (applyReset d s).pktMem[j]? = some (d.pktMem.getD j false) := by
  simp [applyReset, State.resetWith, hj]

/-- Settles O45: the step is `applyReset`, which takes the draws, CHAN and PKTMEM by their rules above. -/
theorem resetInputResets : Obligations.ResetInputResets := by
  unfold Obligations.ResetInputResets
  intro s d rest hp hnch hidle
  have hchan := applyReset_chan_lt d { s with port := rest } hnch
  exact ⟨_, step_of_rst_admitted hp hidle, rfl, rfl, rfl, rfl, rfl, rfl, rfl, hchan, applyReset_chan_of_inTable, rfl,
    rfl, rfl, rfl, rfl, rfl, applyReset_pktMem_length d _, fun _ => getElem?_applyReset_pktMem d _, rfl, rfl, rfl, rfl,
    rfl⟩

end Sys2Proof.Machine
